-- ==== Sys2Proof/Word.lean ====
section
/-! DEFINITION. The value types of the engine (00_scope.md R10): bytes, nibbles, 32-bit words, byte
strings, and the 8-byte block a block command takes and gives (R3). -/

namespace Sys2Proof

/-- `u8` (R10). -/
abbrev Byte := BitVec 8

/-- A 4-bit unsigned value (R10). -/
abbrev Nibble := BitVec 4

/-- `u32` (R10). -/
abbrev Word := BitVec 32

/-- A finite sequence of `u8`, indexed from 0 (R10). -/
abbrev ByteString := List Byte

/-- A byte string of length 8: the operand of a block command (R3, R94). A block of another length
is not expressible (R82), so the length is part of the type. -/
structure Block where
  b0 : Byte
  b1 : Byte
  b2 : Byte
  b3 : Byte
  b4 : Byte
  b5 : Byte
  b6 : Byte
  b7 : Byte
deriving DecidableEq, Repr

end Sys2Proof
end

