-- ==== Sys2Proof/Machine/Bits.lean ====
section
/-! DEFINITION. The notation of 00_scope.md R11 on words and bytes: extraction, little-endian
assembly, rotation. -/

namespace Sys2Proof

/-- `zext_32(v)` (R11): the only extension in this hardware. -/
def zext32 {n : Nat} (v : BitVec n) : Word := v.setWidth 32

/-- `byteN(a)`, 0 = least significant (R11). -/
def byteN (n : Fin 4) (a : Word) : Byte := a.extractLsb' (8 * n.val) 8

/-- `nib(a, n)` (R11). -/
def nib (a : Word) (n : Fin 8) : Nibble := a.extractLsb' (4 * n.val) 4

/-- `le32(b0, b1, b2, b3)`: the little-endian word of four bytes (R11, R57). -/
def le32 (b0 b1 b2 b3 : Byte) : Word :=
  zext32 b0 ||| (zext32 b1 <<< 8) ||| (zext32 b2 <<< 16) ||| (zext32 b3 <<< 24)

/-- `le32_bytes(w)` (R11). -/
def le32Bytes (w : Word) : ByteString := [byteN 0 w, byteN 1 w, byteN 2 w, byteN 3 w]

/-- `rol32(a, n)`, `0 < n < 32` (R11). -/
def rol32 (a : Word) (n : Nat) : Word := (a <<< n) ||| (a >>> (32 - n))

/-- A 16-bit length as two little-endian bytes (30_encoding.md R81). -/
def le16Bytes (n : Nat) : ByteString := [BitVec.ofNat 8 n, BitVec.ofNat 8 (n / 256)]

/-- The length two little-endian bytes hold (R87: frame byte 2 + 256 * frame byte 3). -/
def le16 (lo hi : Byte) : Nat := lo.toNat + 256 * hi.toNat

/-- The bytes of a block in index order (R10). -/
def Block.bytes (b : Block) : ByteString := [b.b0, b.b1, b.b2, b.b3, b.b4, b.b5, b.b6, b.b7]

/-- A byte string of length 8 as a block; any other is none (R82). -/
def Block.ofBytes : ByteString → Option Block
  | [b0, b1, b2, b3, b4, b5, b6, b7] => some ⟨b0, b1, b2, b3, b4, b5, b6, b7⟩
  | _ => none

/-- The `count` lowest bytes of a number, least significant first. -/
def bytesOfNat : Nat → Nat → ByteString
  | 0, _ => []
  | count + 1, v => BitVec.ofNat 8 v :: bytesOfNat count (v / 256)

end Sys2Proof
end

