-- ==== Sys2Proof/Syntax.lean ====
section
/-! DEFINITION. The abstract command set (30_encoding.md R94), one constructor per row of
spec/opcode_table.json. -/

namespace Sys2Proof

/-- A command with its payload. `configure` is two rows of the table: the recognised operation and
all others (R84, R85). -/
inductive Instr where
  /-- `set_key` (42_key_schedule.md R140): the key bytes, of any length. -/
  | setKey (key : ByteString)
  /-- `encrypt_block` (43_feistel_engine.md R150). -/
  | encryptBlock (block : Block)
  /-- `decrypt_block` (43_feistel_engine.md R151). -/
  | decryptBlock (block : Block)
  /-- `configure` with `SUBOP = 0x01` (44_configure.md R171): the OID string. -/
  | selectSbox (oid : ByteString)
  /-- `configure` with any other `SUBOP` (44_configure.md R173). -/
  | configUnsupported (op : Byte) (payload : ByteString)
deriving DecidableEq, Repr

end Sys2Proof
end

