-- ==== Sys2Proof/WellFormed.lean ====
section
/-! DEFINITION. Which terms of `Instr` are commands of the spec: payload lengths fit the 16-bit `LEN`
field (30_encoding.md R81, R94) and an unsupported `configure` is not `SELECT_SBOX` (R85). -/

namespace Sys2Proof

/-- `LEN` is 16 bits (R81). -/
def maxPayload : Nat := 65535

/-- `SUBOP` of `SELECT_SBOX` (R85). -/
def subopSelect : Byte := 0x01#8

/-- The command can be sent as a frame (R81, R85, R94). -/
def Instr.wf : Instr → Bool
  | .setKey key => decide (key.length ≤ maxPayload)
  | .encryptBlock _ => true
  | .decryptBlock _ => true
  | .selectSbox oid => decide (oid.length ≤ maxPayload)
  | .configUnsupported op payload => decide (op ≠ subopSelect) && decide (payload.length ≤ maxPayload)

end Sys2Proof
end

