-- ==== Sys2Proof/Decode.lean ====
section
/-! DEFINITION. The CMD frame: decoding (30_encoding.md R81 to R89), total on every byte string and
rejecting by name, and the encoder (R89), written from the same tables. -/

namespace Sys2Proof

/-- Why a byte string is no command. The last three are the cases of R88, in its order; the first is
no frame at all (R89, D22). -/
inductive DecodeError where
  /-- Shorter or longer than its header's `4 + LEN` bytes. -/
  | notWholeFrame
  /-- R88 case 1: `OPC` is `0x00` or in `0x05..0xFF`. -/
  | unknownOpc
  /-- R88 case 2: a `SUBOP` other than `0x00` on `set_key` or a block command. -/
  | straySubop
  /-- R88 case 3: a block command with `LEN` other than 8. -/
  | blockLen
deriving DecidableEq, Repr

/-- `OPC` of `set_key` (R84). -/
def opcSetKey : Byte := 0x01#8
/-- `OPC` of `encrypt_block` (R84). -/
def opcEncrypt : Byte := 0x02#8
/-- `OPC` of `decrypt_block` (R84). -/
def opcDecrypt : Byte := 0x03#8
/-- `OPC` of `configure` (R84). -/
def opcConfigure : Byte := 0x04#8

/-- A block command's payload: exactly 8 bytes (R82, R88 case 3). -/
def decodeBlock (command : Block → Instr) (payload : ByteString) : Except DecodeError Instr :=
  match Block.ofBytes payload with
  | some b => .ok (command b)
  | none => .error .blockLen

/-- The command a header's `OPC` and `SUBOP` and the payload stand for; tests in the order of R88
and R185. -/
def decodeCommand (opc subop : Byte) (payload : ByteString) : Except DecodeError Instr :=
  if opc = opcConfigure then
    if subop = subopSelect then .ok (.selectSbox payload) else .ok (.configUnsupported subop payload)
  else if opc = opcSetKey then
    if subop = 0x00#8 then .ok (.setKey payload) else .error .straySubop
  else if opc = opcEncrypt then
    if subop = 0x00#8 then decodeBlock .encryptBlock payload else .error .straySubop
  else if opc = opcDecrypt then
    if subop = 0x00#8 then decodeBlock .decryptBlock payload else .error .straySubop
  else .error .unknownOpc

/-- `decode(frame)` (R89): four header bytes, then exactly `LEN` payload bytes. -/
def decode : ByteString → Except DecodeError Instr
  | opc :: subop :: lenLo :: lenHi :: payload =>
    if payload.length = le16 lenLo lenHi then decodeCommand opc subop payload
    else .error .notWholeFrame
  | _ => .error .notWholeFrame

/-- A byte string that is a whole frame: its length is `4 + LEN` (R80, R90). -/
def wholeFrame : ByteString → Bool
  | _ :: _ :: lenLo :: lenHi :: payload => payload.length == le16 lenLo lenHi
  | _ => false

/-- The bytes of a CMD frame (R81). -/
def cmdFrame (opc subop : Byte) (payload : ByteString) : ByteString :=
  opc :: subop :: (le16Bytes payload.length ++ payload)

/-- Encoding (R89). -/
def encode : Instr → ByteString
  | .setKey key => cmdFrame opcSetKey 0x00#8 key
  | .encryptBlock b => cmdFrame opcEncrypt 0x00#8 b.bytes
  | .decryptBlock b => cmdFrame opcDecrypt 0x00#8 b.bytes
  | .selectSbox oid => cmdFrame opcConfigure subopSelect oid
  | .configUnsupported op payload => cmdFrame opcConfigure op payload

/-- The header word `H` of a frame, sent little-endian (R80, R81). -/
def headerWord (opc subop lenLo lenHi : Byte) : Word := le32 opc subop lenLo lenHi

/-- A number numbered as spec/opcode_table.json numbers a row (`nbits` bits, bit 0 the least
significant bit of the header word), laid out as frame bytes: the header, little-endian, then the
`LEN` payload bytes its header asks for, zero above `nbits`. -/
def tableFrame (nbits w : Nat) : ByteString :=
  let v := w % 2 ^ nbits
  bytesOfNat (max (4 + v / 65536 % 65536) (nbits / 8)) v

/-- What the decoder reads from a row's bits (log entry 9). -/
def decodeTableWord (nbits w : Nat) : Option Instr :=
  match decode (tableFrame nbits w) with
  | .ok i => some i
  | .error _ => none

end Sys2Proof
end

