-- ==== Sys2Proof/Config.lean ====
section
/-! DEFINITION. What is fixed for one piece of hardware: the cipher's constants (00_scope.md R3) and
the parameter `SBOX_SET` (R8), which the spec leaves open (R118). -/

namespace Sys2Proof

/-- A compact table: 16 rows (nibble value) by 8 columns, every entry a nibble
(40_table_compiler.md R111). Entries over 15 cannot be written (93_implementation_defined.md V6). -/
abbrev CompactTable := Vector (Vector Nibble 8) 16

/-- One record of `SBOX_SET` (R8). Names and OIDs are the ASCII bytes of their characters
(30_encoding.md R92; log entry 11). -/
structure SboxRecord where
  name    : ByteString
  oid     : ByteString
  compact : CompactTable
deriving DecidableEq, Repr

/-- `SBOX_SET`: an ordered list of records; `NTAB` is its length (R8). -/
abbrev SboxSet := List SboxRecord

namespace Config

/-- PARAMETER, without a value (R8, R118; log entry 1): nothing can be proved about its contents, so
what is proved of the model holds for every table set. -/
opaque sboxSet : SboxSet

/-- Block size in bytes (R3). -/
def blockBytes : Nat := 8

/-- Key size in bytes: 256 bits (R3). -/
def keyBytes : Nat := 32

/-- Number of subkeys (R3). -/
def numSubkeys : Nat := 8

/-- Round applications per block operation (R3). -/
def numRounds : Nat := 32

/-- Rotation amount of the round function, to the left (R3). -/
def rotation : Nat := 11

/-- The transport modes the framework layers outside the engine (00_scope.md R15, ECB/CFB). -/
inductive TransportMode where
  | ecb
  | cfb
deriving DecidableEq, Repr

/-- Default transport mode = CFB (R3); advertised, read by no command (D20). -/
def defaultTransportMode : TransportMode := .cfb

/-- The characters of "test", the name of the library default table (R8, R113). -/
def testName : ByteString := [0x74#8, 0x65#8, 0x73#8, 0x74#8]

/-- The characters of a dotted-numeric OID: `0`..`9` and the dot (R92). -/
def isOidChar (c : Byte) : Bool :=
  c == 0x2E#8 || (decide (0x30#8 ≤ c) && decide (c ≤ 0x39#8))

end Config

/-- The constraint of R8 on a table set: exactly one record is named "test" (so `NTAB >= 1`), and
every OID is a non-empty string of OID characters (R8, R92; log entry 10). -/
def SboxSet.wf (set : SboxSet) : Bool :=
  (set.countP (fun r => r.name == Config.testName) == 1)
    && set.all (fun r => !r.oid.isEmpty && r.oid.all Config.isOidChar)

/-- `OID_TEST`: the OID of the record named "test" (R8). -/
def SboxSet.oidTest (set : SboxSet) : Option ByteString :=
  (set.find? (fun r => r.name == Config.testName)).map (fun r => r.oid)

end Sys2Proof
end

