-- ==== Sys2Proof/Machine/TableCompiler.lean ====
section
/-! DEFINITION. The substitution table compiler (40_table_compiler.md): from the parameter
`SBOX_SET` to the images of the substitution ROM and the registry ROM. It is evaluated before reset
is released and is no command (R110). -/

namespace Sys2Proof

/-- `C[r][c]`: row `r` is the nibble substituted, column `c` the box of nibble `c` (R111). -/
def CompactTable.entry (C : CompactTable) (r : Nibble) (c : Fin 8) : Nibble :=
  (C[r.toNat]'r.isLt)[c.val]

/-- `nibble_substitute_C(v)`: nibble `n` is `C[nib(v, n)][n]` (00_scope.md R13). -/
def nibbleSubstitute (C : CompactTable) (v : Word) : Word :=
  (List.finRange 8).foldl
    (fun acc n => acc ||| (zext32 (C.entry (nib v n) n) <<< (4 * n.val))) 0#32

namespace Machine

/-- Column `2i`: the low-nibble box of byte position `i` (R111). -/
def lowColumn (i : Fin 4) : Fin 8 := ⟨2 * i.val, by omega⟩

/-- Column `2i + 1`: the high-nibble box of byte position `i` (R111). -/
def highColumn (i : Fin 4) : Fin 8 := ⟨2 * i.val + 1, by omega⟩

/-- `E[i][j]`, the source's formula (R112). -/
def compileEntry (C : CompactTable) (i : Fin 4) (j : Byte) : Word :=
  let low := C.entry (j.extractLsb' 0 4) (lowColumn i)
  let high := C.entry (j.extractLsb' 4 4) (highColumn i)
  let combined := zext32 low ||| (zext32 high <<< 4)
  let positioned := combined <<< (8 * i.val)
  rol32 positioned Config.rotation

/-- `compile(C)`: the 4 x 256 entries, `i` major, `j` minor (R112, R113, 20_memory.md R52). -/
def compile (C : CompactTable) : List Word :=
  (List.finRange 4).flatMap (fun i => (List.range 256).map (fun j => compileEntry C i (BitVec.ofNat 8 j)))

/-- The image of the substitution ROM: table `t` at word offset `t * 1024` (20_memory.md R51, R52). -/
def sromImage (set : SboxSet) : List Word := set.flatMap (fun r => compile r.compact)

/-- An entry of the registry ROM (20_memory.md R53, R54). The reference of a record is its position
(decision D11). The sentinel has no OID. -/
inductive RegistryEntry where
  | record (name oid : ByteString)
  | sentinel
deriving DecidableEq, Repr

/-- The image of the registry ROM: the records in the order of the set, then the sentinel (R53, R113). -/
def rromImage (set : SboxSet) : List RegistryEntry :=
  set.map (fun r => .record r.name r.oid) ++ [.sentinel]

end Machine

end Sys2Proof
end

