-- ==== Sys2Proof/Machine/State.lean ====
section
/-! DEFINITION. The state of one engine instance (10_state.md R20), its address spaces (20_memory.md
R50), and what stands on the two sides of its command interface; faults, refusals and reset. -/

namespace Sys2Proof.Machine

/-- `K[0..7]`: eight 32-bit subkey registers (10_state.md R25). -/
structure Subkeys where
  k0 : Word
  k1 : Word
  k2 : Word
  k3 : Word
  k4 : Word
  k5 : Word
  k6 : Word
  k7 : Word
deriving DecidableEq, Repr

/-- What the outside world can do to the engine (60_exceptions.md R194, 70_reset_and_hazards.md R210,
R211; log entry 4). -/
inductive HostInput where
  /-- The transport presents one frame (R194). -/
  | frame (bytes : ByteString)
  /-- Reset while no command is in progress (R210). -/
  | reset
  /-- A frame is accepted, and reset comes before its response is delivered (R211). -/
  | frameThenReset (bytes : ByteString)
deriving DecidableEq, Repr

structure State where
  /-- `K[0..7]` (R25). -/
  k : Subkeys
  /-- `KEY_VALID` (R26). -/
  keyValid : Bool
  /-- `TSEL`, the index of the active table (R27). -/
  tsel : Nat
  /-- `TSEL_VALID` (R28). -/
  tselValid : Bool
  /-- `N1` (R21). -/
  n1 : Word
  /-- `N2` (R21). -/
  n2 : Word
  /-- `RC`, the round counter: 6 bits, values 0..32 (R22). -/
  rc : BitVec 6
  /-- `DIR`: 0 encrypt, 1 decrypt (R23). -/
  dir : BitVec 1
  /-- `PBUF`: the payload of the command being executed, empty between commands (20_memory.md R56). -/
  pbuf : ByteString
  /-- `OBUF`: the response payload being built, empty between commands (20_memory.md R56). -/
  obuf : ByteString
  /-- `SROM`: the substitution ROM, by word index (20_memory.md R51, R52). -/
  srom : List Word
  /-- `RROM`: the registry ROM, by entry index (20_memory.md R53). -/
  rrom : List RegistryEntry
  /-- MODEL: the host's inputs not yet accepted, oldest first (log entry 4). -/
  inbox : List HostInput
  /-- MODEL: the RSP frames delivered, oldest first (log entry 5). -/
  outbox : List ByteString
deriving DecidableEq, Repr

/-- Where the machine stops. The spec's own errors are no faults: they are responses of a machine
that goes on (60_exceptions.md R184, R186). -/
inductive Fault where
  /-- Raised by `encrypt_block` and `decrypt_block` in a state that has a key but no active table
  whose 1024 words `SROM` holds, a state that 10_state.md R27 and R29 exclude. SAFE (log entry 7). -/
  | noActiveTable
deriving DecidableEq, Repr

/-- Where the model has no meaning to give. -/
inductive Refusal where
  /-- An instruction without a meaning; raised by an arm of `exec` only. SAFE. No arm raises it. -/
  | notModelled (mnemonic : String)
  /-- Raised by the step for an inbox item that is no whole frame, which the spec leaves out of the
  model (30_encoding.md R89, D22). SAFE (log entry 6). -/
  | notWholeFrame
deriving DecidableEq, Repr

/-- All eight subkeys zero (10_state.md R32). -/
def Subkeys.zero : Subkeys :=
  { k0 := 0, k1 := 0, k2 := 0, k3 := 0, k4 := 0, k5 := 0, k6 := 0, k7 := 0 }

/-- The machine right after reset, with the ROMs that the parameter `SBOX_SET` gives (10_state.md R32,
70_reset_and_hazards.md R210, R214). The spec gives `TSEL` no value: 0 is the model's (log entry 3). -/
def State.resetWith (set : SboxSet) : State where
  k := .zero
  keyValid := false
  tsel := 0
  tselValid := false
  n1 := 0
  n2 := 0
  rc := 0
  dir := 0
  pbuf := []
  obuf := []
  srom := sromImage set
  rrom := rromImage set
  inbox := []
  outbox := []

/-- The machine right after reset (10_state.md R32), over the open parameter (log entry 1). -/
def State.reset : State := State.resetWith Config.sboxSet

end Sys2Proof.Machine
end

