-- ==== Sys2Proof/Machine/Flags.lean ====
section
/-! DEFINITION. The engine's only two flags, `KEY_VALID` and `TSEL_VALID` (10_state.md R35), each written
together with the register it vouches for. No flag records a carry: the adder wraps silently. -/

namespace Sys2Proof.Machine

/-- `K <- ks; KEY_VALID <- 1` (10_state.md R25, R26). -/
def State.keyed (s : State) (ks : Subkeys) : State := { s with k := ks, keyValid := true }

/-- `TSEL <- t; TSEL_VALID <- 1` (10_state.md R27, R28). -/
def State.select (s : State) (t : Nat) : State := { s with tsel := t, tselValid := true }

/-- The table assignment of a successful `set_key` (42_key_schedule.md R143): only when none was made. -/
def State.selectIfNone (s : State) (t : Nat) : State := if s.tselValid then s else s.select t

end Sys2Proof.Machine
end

