-- ==== Sys2Proof/Machine/Operands.lean ====
section
/-! DEFINITION. Operand assembly (30_encoding.md R87): little-endian words from `PBUF`, the eight
subkeys of a key, and the subkey register a round application names. -/

namespace Sys2Proof.Machine

/-- `le32(PBUF[n], PBUF[n+1], PBUF[n+2], PBUF[n+3])` (R87, R57). The proof says that the four bytes
exist: no rule reads `PBUF` outside `0..LEN-1` (20_memory.md R56, R58). -/
def wordAt (buf : ByteString) (n : Nat) (h : n + 4 ≤ buf.length) : Word :=
  le32 buf[n] buf[n + 1] buf[n + 2] buf[n + 3]

/-- Key decoding (42_key_schedule.md R141): word `i` from bytes `[4i, 4i+4)`. -/
def subkeysOf (buf : ByteString) (h : buf.length = Config.keyBytes) : Subkeys :=
  have h : buf.length = 32 := h
  { k0 := wordAt buf 0 (by omega)
    k1 := wordAt buf 4 (by omega)
    k2 := wordAt buf 8 (by omega)
    k3 := wordAt buf 12 (by omega)
    k4 := wordAt buf 16 (by omega)
    k5 := wordAt buf 20 (by omega)
    k6 := wordAt buf 24 (by omega)
    k7 := wordAt buf 28 (by omega) }

/-- `K[i]` (10_state.md R25). -/
def Subkeys.get (ks : Subkeys) (i : Fin 8) : Word :=
  match i with
  | 0 => ks.k0
  | 1 => ks.k1
  | 2 => ks.k2
  | 3 => ks.k3
  | 4 => ks.k4
  | 5 => ks.k5
  | 6 => ks.k6
  | 7 => ks.k7

end Sys2Proof.Machine
end

