-- ==== Sys2Proof/Machine/Response.lean ====
section
/-! DEFINITION. Status codes (60_exceptions.md R181) and the RSP frame (30_encoding.md R83). -/

namespace Sys2Proof.Machine

/-- The results a command can end with (R180, R181). -/
inductive Status where
  | ok
  | invalidKeyLength
  | sboxNotFound
  | unsupportedOperation
  | noKey
  | illegalCommand
deriving DecidableEq, Repr

/-- The `STATUS` field (R181). -/
def Status.code : Status → Byte
  | .ok => 0x00#8
  | .invalidKeyLength => 0x01#8
  | .sboxNotFound => 0x02#8
  | .unsupportedOperation => 0x03#8
  | .noKey => 0x04#8
  | .illegalCommand => 0x05#8

/-- The status a code stands for; `0x06..0xFF` are never produced (R181). -/
def Status.ofCode (c : Byte) : Option Status :=
  [Status.ok, .invalidKeyLength, .sboxNotFound, .unsupportedOperation, .noKey, .illegalCommand].find?
    (fun st => st.code == c)

/-- An RSP frame (R83): `STATUS`, the reserved byte `0x00`, `RLEN` little-endian, then the payload. -/
def rspFrame (st : Status) (payload : ByteString) : ByteString :=
  st.code :: 0x00#8 :: (le16Bytes payload.length ++ payload)

/-- What the host reads from an RSP frame (R83): the status and the payload. -/
def parseRsp : ByteString → Option (Status × ByteString)
  | code :: reserved :: lenLo :: lenHi :: payload =>
    if reserved = 0x00#8 ∧ payload.length = le16 lenLo lenHi then
      (Status.ofCode code).map (fun st => (st, payload))
    else none
  | _ => none

end Sys2Proof.Machine
end

