-- ==== Sys2Proof/Machine/Ops.lean ====
section
/-! DEFINITION. The shared operations (00_scope.md R12): ROM reads, the registry search, accepting a
command, responding, raising an error, zeroisation and reset. -/

namespace Sys2Proof.Machine

/-! ### ROM reads -/

/-- Words of `SROM` per table: 4 x 256 (20_memory.md R52). -/
def tableWords : Nat := 1024

/-- `RomRead(t, i, j)`: the word at index `t*1024 + i*256 + j` (20_memory.md R52). The proof says that
`SROM` holds table `t`. -/
def romRead (srom : List Word) (t : Nat) (h : (t + 1) * tableWords ≤ srom.length) (i : Fin 4)
    (j : Byte) : Word :=
  srom[t * 1024 + i.val * 256 + j.toNat]'(by
    have hj := j.isLt
    have hi := i.isLt
    simp only [tableWords] at h
    omega)

/-- The table `TSEL` names, as its four 256-entry tables (10_state.md R27). None while `TSEL` holds no
value (R28) or names no table of `SROM` (log entry 7). -/
def State.activeTable (s : State) : Option (Fin 4 → Byte → Word) :=
  if h : s.tselValid = true ∧ (s.tsel + 1) * tableWords ≤ s.srom.length then
    some (romRead s.srom s.tsel h.2)
  else none

/-- `KROM`: the encryption sequence, then the decryption sequence (20_memory.md R55, 43_feistel_engine.md
R154; log entry 17). -/
def krom : List (Fin 8) :=
  [0, 1, 2, 3, 4, 5, 6, 7, 3, 4, 5, 6, 7, 0, 1, 2, 5, 6, 7, 0, 1, 2, 3, 4, 6, 5, 4, 3, 2, 1, 0, 7,
   7, 0, 1, 2, 3, 4, 5, 6, 4, 3, 2, 1, 0, 7, 6, 5, 2, 1, 0, 7, 6, 5, 4, 3, 7, 6, 5, 4, 3, 2, 1, 0]

/-- `Sched(DIR, s)`: the subkey index at `DIR*32 + s` (20_memory.md R55). -/
def sched (dir : BitVec 1) (s : Fin 32) : Fin 8 :=
  krom[dir.toNat * 32 + s.val]'(by
    have hd := dir.isLt
    have hs := s.isLt
    have : krom.length = 64 := by decide
    omega)

/-- `NTAB`: the number of records before the sentinel (20_memory.md R53, R54). -/
def registrySize : List RegistryEntry → Nat
  | .record _ _ :: rest => registrySize rest + 1
  | .sentinel :: _ => 0
  | [] => 0

/-- The search of the registry in record order from index `t`, stopping at the sentinel (44_configure.md
R172): equal length and equal bytes. -/
def lookupFrom (oid : ByteString) (t : Nat) : List RegistryEntry → Option Nat
  | .record _ o :: rest => if o = oid then some t else lookupFrom oid (t + 1) rest
  | .sentinel :: _ => none
  | [] => none

/-- `Lookup(oid)` (44_configure.md R172). -/
def lookup (rrom : List RegistryEntry) (oid : ByteString) : Option Nat := lookupFrom oid 0 rrom

/-- `DEFAULT_TABLE`: the index of the record named "test" (00_scope.md R8); `NTAB`, which is no table's
index, in a registry without one (log entry 8). -/
def defaultTable : List RegistryEntry → Nat
  | .record name _ :: rest => if name = Config.testName then 0 else defaultTable rest + 1
  | .sentinel :: _ => 0
  | [] => 0

/-! ### The ends of a command -/

/-- The payload of an accepted command stands in `PBUF` (20_memory.md R56, 30_encoding.md R81). -/
def State.accept (s : State) (payload : ByteString) : State := { s with pbuf := payload }

/-- Zeroisation of the transient registers (10_state.md R31). -/
def State.zeroise (s : State) : State := { s with n1 := 0, n2 := 0, rc := 0, dir := 0 }

/-- The end of a command: its response is delivered, and both buffers are forgotten (20_memory.md R56,
30_encoding.md R83, 60_exceptions.md R196). -/
def State.respond (s : State) (st : Status) (payload : ByteString) : State :=
  { s with pbuf := [], obuf := [], outbox := s.outbox ++ [rspFrame st payload] }

/-- `respond OK()` (00_scope.md R12). -/
def State.respondOk (s : State) : State := s.respond .ok []

/-- `raise <Error>` (60_exceptions.md R184): no register of the context is written, the transient
registers are zeroised, the response has the status and no payload, and the engine is ready for the
next command. Nothing is saved, no mode changes, and there is no return operation (R186; log entry 15). -/
def State.raise (s : State) (error : Status) : State := s.zeroise.respond error []

/-! ### What is no command -/

/-- Reset (70_reset_and_hazards.md R210): every register at its reset value, the ROMs untouched. What
stands outside the engine (`inbox`, `outbox`) is not the engine's to clear (log entry 4). -/
def State.hardReset (s : State) : State :=
  { s with
    k := .zero, keyValid := false, tsel := 0, tselValid := false
    n1 := 0, n2 := 0, rc := 0, dir := 0, pbuf := [], obuf := [] }

/-- A byte string that is no command (30_encoding.md R88): an illegal frame is consumed whole and
answered with `IllegalCommand`; what is no frame is never presented (R89, log entry 6). -/
def rejectFrame (e : DecodeError) (s : State) : Host.Outcome State Fault Refusal :=
  match e with
  | .notWholeFrame => .refused .notWholeFrame
  | .unknownOpc => .next (s.raise .illegalCommand)
  | .straySubop => .next (s.raise .illegalCommand)
  | .blockLen => .next (s.raise .illegalCommand)

/-- Reset during a command (70_reset_and_hazards.md R211): the command is abandoned, no response is
delivered, and the state is the reset state whatever the command had written. -/
def abandonFrame (bytes : ByteString) (s : State) : Host.Outcome State Fault Refusal :=
  if wholeFrame bytes then .next s.hardReset else .refused .notWholeFrame

end Sys2Proof.Machine
end

