-- ==== Sys2Proof/Machine/Configure.lean ====
section
/-! DEFINITION. `configure` and table selection (44_configure.md). -/

namespace Sys2Proof.Machine

/-- `select_sbox` (R171), on an accepted payload. -/
def State.selectSbox (s : State) : State :=
  match lookup s.rrom s.pbuf with
  | some t => (s.select t).respondOk
  | none => s.raise .sboxNotFound

/-- `configure` (R170): `SUBOP` is tested before the payload is looked at (R173, R185). -/
def configure (op : Byte) (payload : ByteString) (s : State) : Host.Outcome State Fault Refusal :=
  let s := s.accept payload
  .next (if op = subopSelect then s.selectSbox else s.raise .unsupportedOperation)

/-- `configure` with `SUBOP = 0x01` (R171). -/
def execSelectSbox (oid : ByteString) (s : State) : Host.Outcome State Fault Refusal :=
  configure subopSelect oid s

/-- `configure` with another `SUBOP` (R173; log entry 18 for the ill-formed term with `0x01`). -/
def execConfigUnsupported (op : Byte) (payload : ByteString) (s : State) :
    Host.Outcome State Fault Refusal :=
  configure op payload s

end Sys2Proof.Machine
end

