-- ==== Sys2Proof/Machine/RoundFunction.lean ====
section
/-! DEFINITION. The round function with table lookup (41_round_function.md). -/

namespace Sys2Proof.Machine

/-- `round(x, k, t)` (R130), with `T i j` for `RomRead(t, i, j)`. The carry out of the addition is
discarded. -/
def roundFn (T : Fin 4 → Byte → Word) (x k : Word) : Word :=
  let sum := x + k
  T 0 (byteN 0 sum) ||| T 1 (byteN 1 sum) ||| T 2 (byteN 2 sum) ||| T 3 (byteN 3 sum)

end Sys2Proof.Machine
end

