-- ==== Sys2Proof/Machine/FeistelEngine.lean ====
section
/-! DEFINITION. The 32-round Feistel engine: `encrypt_block` and `decrypt_block` (43_feistel_engine.md). -/

namespace Sys2Proof.Machine

/-- `DIR <- dir` (R150, R151). -/
def State.direct (s : State) (dir : BitVec 1) : State := { s with dir := dir }

/-- An accepted block stands in `PBUF` with its 8 bytes (R82). -/
theorem length_pbuf_of_block (s : State) (dir : BitVec 1) (block : Block) :
    ((s.accept block.bytes).direct dir).pbuf.length = Config.blockBytes := rfl

/-- Load (R152): `N1` from word0, `N2` from word1, `RC <- 0`. -/
def State.load (s : State) (h : s.pbuf.length = Config.blockBytes) : State :=
  have h : s.pbuf.length = 8 := h
  { s with n1 := wordAt s.pbuf 0 (by omega), n2 := wordAt s.pbuf 4 (by omega), rc := 0 }

/-- Round application number `RC` (R153): even `RC` updates `N2` from `N1`, odd `RC` updates `N1` from
`N2`. At `RC = 32` all are done (10_state.md R22). -/
def State.roundApplication (T : Fin 4 → Byte → Word) (s : State) : State :=
  if h : s.rc.toNat < 32 then
    let key := s.k.get (sched s.dir ⟨s.rc.toNat, h⟩)
    if s.rc.toNat % 2 = 0 then { s with n2 := s.n2 ^^^ roundFn T s.n1 key, rc := s.rc + 1 }
    else { s with n1 := s.n1 ^^^ roundFn T s.n2 key, rc := s.rc + 1 }
  else s

/-- `count` round applications, in order (R150). -/
def State.roundApplications (T : Fin 4 → Byte → Word) : Nat → State → State
  | 0, s => s
  | count + 1, s => roundApplications T count (s.roundApplication T)

/-- Store (R155): word0 from `N2`, word1 from `N1`. -/
def State.store (s : State) : State := { s with obuf := le32Bytes s.n2 ++ le32Bytes s.n1 }

/-- The end of a block command: `N1`, `N2`, `RC`, `DIR` cleared, then `respond OK(OBUF[0..7])` (R150,
10_state.md R31). -/
def State.finishBlock (s : State) : State := s.zeroise.respond .ok s.obuf

/-- What a block command does once its tests are passed (R150): load, 32 round applications, store,
zeroise, respond. -/
def State.processBlock (T : Fin 4 → Byte → Word) (dir : BitVec 1) (block : Block) (s : State) : State :=
  let loaded := ((s.accept block.bytes).direct dir).load (length_pbuf_of_block s dir block)
  (loaded.roundApplications T Config.numRounds).store.finishBlock

/-- A block command (R150, R151); the two differ in the schedule half `DIR` selects. -/
def blockCommand (dir : BitVec 1) (block : Block) (s : State) : Host.Outcome State Fault Refusal :=
  if s.keyValid then
    match s.activeTable with
    | some T => .next (s.processBlock T dir block)
    | none => .fault .noActiveTable
  else .next (s.raise .noKey)

/-- `encrypt_block` (R150). -/
def execEncryptBlock (block : Block) (s : State) : Host.Outcome State Fault Refusal :=
  blockCommand 0 block s

/-- `decrypt_block` (R151). -/
def execDecryptBlock (block : Block) (s : State) : Host.Outcome State Fault Refusal :=
  blockCommand 1 block s

end Sys2Proof.Machine
end

