-- ==== Sys2Proof/Machine/KeySchedule.lean ====
section
/-! DEFINITION. The key schedule: `set_key` (42_key_schedule.md). -/

namespace Sys2Proof.Machine

/-- `set_key` (R140 to R143): the length test precedes every write. -/
def execSetKey (key : ByteString) (s : State) : Host.Outcome State Fault Refusal :=
  let s := s.accept key
  if h : s.pbuf.length = Config.keyBytes then
    .next (((s.keyed (subkeysOf s.pbuf h)).selectIfNone (defaultTable s.rrom)).respondOk)
  else
    .next (s.raise .invalidKeyLength)

end Sys2Proof.Machine
end

