-- ==== Sys2Proof/Machine/Dispatch.lean ====
section
/-! DEFINITION. One command executed to completion (60_exceptions.md R194, R195): one arm per
constructor of `Instr`. -/

namespace Sys2Proof.Machine

def exec (i : Instr) (s : State) : Host.Outcome State Fault Refusal :=
  match i with
  | .setKey key => Sys2Proof.Machine.execSetKey key s
  | .encryptBlock block => Sys2Proof.Machine.execEncryptBlock block s
  | .decryptBlock block => Sys2Proof.Machine.execDecryptBlock block s
  | .selectSbox oid => Sys2Proof.Machine.execSelectSbox oid s
  | .configUnsupported op payload => Sys2Proof.Machine.execConfigUnsupported op payload s

end Sys2Proof.Machine
end

