-- ==== Sys2Proof/Machine/Step.lean ====
section
/-! DEFINITION. The step of the engine (60_exceptions.md R194): accept one input, deal with it to
completion. -/

namespace Sys2Proof.Machine

/-- One frame: the command it decodes to, or its rejection (30_encoding.md R88, R89). -/
def runFrame (bytes : ByteString) (s : State) : Host.Outcome State Fault Refusal :=
  match decode bytes with
  | .ok i => exec i s
  | .error e => rejectFrame e s

/-- The step: the oldest input of the host is accepted; without one the engine is idle and keeps its
context (60_exceptions.md R191, R194, R196; log entries 6 and 16). -/
def step (s : State) : Host.Outcome State Fault Refusal :=
  match s.inbox with
  | [] => .next s
  | .frame bytes :: rest => runFrame bytes { s with inbox := rest }
  | .reset :: rest => .next (State.hardReset { s with inbox := rest })
  | .frameThenReset bytes :: rest => abandonFrame bytes { s with inbox := rest }

/-- `s` with the frame a table row's bits stand for as the next input the step accepts (log entry 9). -/
def State.withFetchWord (s : State) (nbits w : Nat) : State :=
  { s with inbox := .frame (tableFrame nbits w) :: s.inbox }

end Sys2Proof.Machine
end

