-- ==== Sys2Proof/Machine/Text.lean ====
section
/-! DEFINITION. The textual syntax of commands and responses (30_encoding.md R91, R92): one line of
characters to a command, and a response to its line. Text never reaches the engine: it is the
notation of the spec's test programs (log entry 13). -/

namespace Sys2Proof.Machine.Text

/-- The ASCII code (R92) of the hexadecimal digit of value `v`, in the alphabet whose letter of value
10 has the code `ten`. -/
def digitCode (ten v : Nat) : Nat := if v < 10 then 0x30 + v else ten + (v - 10)

/-- A hexadecimal digit as the spec prints it, with upper-case letters (R91). -/
def hexDigit (v : Nat) : Char := Char.ofNat (digitCode 0x41 v)

/-- The value of a hexadecimal digit, in either alphabet (log entry 13). -/
def hexValue (c : Char) : Option Nat :=
  (List.range 16).find? fun v => [digitCode 0x41 v, digitCode 0x61 v].contains c.toNat

/-- The digits of a number in a base, most significant first, after the digits already read. -/
def digits (base acc : Nat) : List Char → Option Nat
  | [] => some acc
  | c :: cs =>
    match hexValue c with
    | some v => if v < base then digits base (acc * base + v) cs else none
    | none => none

/-- `<subop>`: a number 0..255, decimal, or hexadecimal after `0x` (R91). -/
def subop : List Char → Option Byte
  | '0' :: 'x' :: d :: ds => (digits 16 0 (d :: ds)).bind fun n => if n < 256 then some (BitVec.ofNat 8 n) else none
  | d :: ds => (digits 10 0 (d :: ds)).bind fun n => if n < 256 then some (BitVec.ofNat 8 n) else none
  | [] => none

/-- A hex byte: two hexadecimal digits (R91). -/
def hexByte : List Char → Option Byte
  | [a, b] => (digits 16 0 [a, b]).map (BitVec.ofNat 8)
  | _ => none

/-- A line cut at its spaces. -/
def split : List Char → List (List Char)
  | [] => [[]]
  | c :: cs =>
    if c = ' ' then [] :: split cs
    else
      match split cs with
      | w :: ws => (c :: w) :: ws
      | [] => [[c]]

/-- The words of a line. -/
def words (line : List Char) : List (List Char) := (split line).filter (fun w => !w.isEmpty)

/-- The rest of a line after its first word, without leading spaces. -/
def afterWord (line : List Char) : List Char :=
  ((line.dropWhile (· == ' ')).dropWhile (· != ' ')).dropWhile (· == ' ')

/-- The characters between the quotes, one ASCII byte each (R91, R92). DESIGN CHOICE: R91 gives no escape and
does not say which quotes bound the payload; here it is the first and the last quote of the argument, so a
quote between them is a payload byte. A character outside ASCII, or one other than a space after the last
quote, makes the line no command (log entry 13). -/
def quoted : List Char → Option ByteString
  | '"' :: rest =>
    match rest.reverse.dropWhile (· == ' ') with
    | '"' :: inner =>
      inner.reverse.mapM fun c => if c.toNat < 128 then some (BitVec.ofNat 8 c.toNat) else none
    | _ => none
  | _ => none

/-- The words of the syntax (R91). -/
def wSetKey : List Char := ['s', 'e', 't', '_', 'k', 'e', 'y']
def wEncrypt : List Char := ['e', 'n', 'c', 'r', 'y', 'p', 't', '_', 'b', 'l', 'o', 'c', 'k']
def wDecrypt : List Char := ['d', 'e', 'c', 'r', 'y', 'p', 't', '_', 'b', 'l', 'o', 'c', 'k']
def wConfigure : List Char := ['c', 'o', 'n', 'f', 'i', 'g', 'u', 'r', 'e']
def wSelect : List Char := ['s', 'e', 'l', 'e', 'c', 't', '_', 's', 'b', 'o', 'x']

/-- `configure` with a numeric operation: `0x01` is `select_sbox` (R91). -/
def configureOp (op : Byte) (payload : ByteString) : Instr :=
  if op = subopSelect then .selectSbox payload else .configUnsupported op payload

/-- One line to a command (R91). -/
def assemble (line : List Char) : Option Instr :=
  match words line with
  | [] => none
  | w :: args =>
    if w = wSetKey then (args.mapM hexByte).map .setKey
    else if w = wEncrypt then ((args.mapM hexByte).bind Block.ofBytes).map .encryptBlock
    else if w = wDecrypt then ((args.mapM hexByte).bind Block.ofBytes).map .decryptBlock
    else if w = wConfigure then
      match args with
      | [] => none
      | op :: bytes =>
        if op = wSelect then (quoted (afterWord (afterWord line))).map .selectSbox
        else (subop op).bind fun n => (bytes.mapM hexByte).map (configureOp n)
    else none

/-- Bytes as two hexadecimal digits each, a space before each (R91). -/
def showBytes (bytes : ByteString) : List Char :=
  bytes.flatMap fun b => [' ', hexDigit (b.toNat / 16), hexDigit (b.toNat % 16)]

/-- A command as a line: `configure` in its numeric form (R91). -/
def disassemble : Instr → List Char
  | .setKey key => wSetKey ++ showBytes key
  | .encryptBlock b => wEncrypt ++ showBytes b.bytes
  | .decryptBlock b => wDecrypt ++ showBytes b.bytes
  | .selectSbox oid => wConfigure ++ [' ', '0', 'x', '0', '1'] ++ showBytes oid
  | .configUnsupported op payload =>
    wConfigure ++ [' ', '0', 'x', hexDigit (op.toNat / 16), hexDigit (op.toNat % 16)] ++ showBytes payload

/-- The name of a status (60_exceptions.md R181). -/
def statusName : Status → List Char
  | .ok => ['O', 'K']
  | .invalidKeyLength =>
    ['I', 'n', 'v', 'a', 'l', 'i', 'd', 'K', 'e', 'y', 'L', 'e', 'n', 'g', 't', 'h']
  | .sboxNotFound => ['S', 'b', 'o', 'x', 'N', 'o', 't', 'F', 'o', 'u', 'n', 'd']
  | .unsupportedOperation =>
    ['U', 'n', 's', 'u', 'p', 'p', 'o', 'r', 't', 'e', 'd', 'O', 'p', 'e', 'r', 'a', 't', 'i', 'o', 'n']
  | .noKey => ['N', 'o', 'K', 'e', 'y']
  | .illegalCommand => ['I', 'l', 'l', 'e', 'g', 'a', 'l', 'C', 'o', 'm', 'm', 'a', 'n', 'd']

/-- A response as a line: the status name, then its payload bytes if any (R91). -/
def showResponse (frame : ByteString) : Option (List Char) :=
  (parseRsp frame).map fun (st, payload) => ['-', '>', ' '] ++ statusName st ++ showBytes payload

end Sys2Proof.Machine.Text
end

