-- ==== Sys2Proof/Machine/Instances.lean ====
section
/-! DEFINITION. Several engine instances (60_exceptions.md R197): the product of single-instance models
over one shared parameter. An instance is named by its position here only: the hardware's instances
have no identifiers (log entry 14). -/

namespace Sys2Proof.Machine

/-- The instances of a system, each with registers of its own. -/
abbrev System := List State

/-- All instances read the same ROMs (R197, 40_table_compiler.md R117). -/
def System.sharesRoms (sys : System) : Bool :=
  match sys with
  | [] => true
  | s :: rest => rest.all fun t => t.srom == s.srom && t.rrom == s.rrom

/-- Instance `n` makes one step; the others do nothing. Which instance steps next is not fixed (R197). -/
def System.stepInstance (sys : System) (n : Nat) : Host.Outcome System Fault Refusal :=
  match sys[n]? with
  | none => .next sys
  | some s =>
    match step s with
    | .next t => .next (sys.set n t)
    | .fault r => .fault r
    | .refused r => .refused r

end Sys2Proof.Machine
end

