-- ==== Sys2Proof/Safety.lean ====
section
/-! DEFINITION. What a safe state is, and the reference forms the claims compare the machine with: the
invariant of every reachable state, idleness between commands, the pair lists of the schedule, and
the cipher written over them. -/

namespace Sys2Proof

/-- Block commands. -/
def Instr.isBlock : Instr → Bool
  | .setKey _ => false
  | .encryptBlock _ => true
  | .decryptBlock _ => true
  | .selectSbox _ => false
  | .configUnsupported _ _ => false

/-- The statuses a command can end with (60_exceptions.md R182). -/
def Instr.possible : Instr → List Machine.Status
  | .setKey _ => [.ok, .invalidKeyLength]
  | .encryptBlock _ => [.ok, .noKey]
  | .decryptBlock _ => [.ok, .noKey]
  | .selectSbox _ => [.ok, .sboxNotFound]
  | .configUnsupported _ _ => [.unsupportedOperation]

end Sys2Proof

namespace Sys2Proof.Machine

/-- Between commands: transient registers zero, buffers forgotten (10_state.md R20, R31; 20_memory.md
R56). -/
def State.idle (s : State) : Bool :=
  s.n1 == 0 && s.n2 == 0 && s.rc == 0 && s.dir == 0 && s.pbuf.isEmpty && s.obuf.isEmpty

/-- The ROMs are of a table set that meets its constraint (R8), whatever words `SROM` holds: the
registry is the set's, and `SROM` has 1024 words for each of its tables (20_memory.md R50, R52, R53;
70_reset_and_hazards.md R214 for words that are not the compiled image). -/
def State.provisioned (s : State) : Prop :=
  ∃ set : SboxSet, set.wf = true ∧ s.rrom = rromImage set ∧ s.srom.length = set.length * tableWords

/-- `SROM` and `RROM` hold the compiler's output for `set` (20_memory.md R51, R53). -/
def State.holdsCompiled (s : State) (set : SboxSet) : Prop :=
  s.srom = sromImage set ∧ s.rrom = rromImage set

/-- What holds of every state a run from reset passes through. -/
structure Invariant (s : State) : Prop where
  /-- R214, R8. -/
  roms : s.provisioned
  /-- Transient registers are zero between commands (10_state.md R20, R31). -/
  idle : s.idle = true
  /-- 10_state.md R29. -/
  keyed_has_table : s.keyValid = true → s.tselValid = true
  /-- 10_state.md R27. -/
  tsel_in_range : s.tselValid = true → s.tsel < registrySize s.rrom
  /-- No key bits without a key (10_state.md R32, 70_reset_and_hazards.md R210). -/
  unkeyed_zero : s.keyValid = false → s.k = Subkeys.zero

/-- The cipher context (10_state.md R24). -/
def State.sameContext (s t : State) : Prop :=
  t.k = s.k ∧ t.keyValid = s.keyValid ∧ t.tsel = s.tsel ∧ t.tselValid = s.tselValid

/-- The next input is a key that will be accepted (42_key_schedule.md R140, R142). -/
def State.keyInput (s : State) (key : ByteString) : Prop :=
  key.length = Config.keyBytes
    ∧ ∃ bytes rest, s.inbox = .frame bytes :: rest ∧ decode bytes = .ok (.setKey key)

/-- The next input is a selection that will find table `n` (44_configure.md R171). -/
def State.selectionInput (s : State) (n : Nat) : Prop :=
  ∃ bytes rest oid, s.inbox = .frame bytes :: rest ∧ decode bytes = .ok (.selectSbox oid)
    ∧ lookup s.rrom oid = some n

/-- The next input is a reset, alone or on a command (70_reset_and_hazards.md R210, R211). -/
def State.resetInput (s : State) : Prop :=
  ∃ rest, s.inbox = .reset :: rest ∨ ∃ bytes, s.inbox = .frameThenReset bytes :: rest

/-- `TSEL` holds a value, and the words of its table are `T` (20_memory.md R52): `RomRead(TSEL, i, j)`
is `T i j`. -/
def State.reads (s : State) (T : Fin 4 → Byte → Word) : Prop :=
  s.tselValid = true ∧ ∀ i j, s.srom[s.tsel * 1024 + i.val * 256 + j.toNat]? = some (T i j)

/-- The width of `TSEL` for `n` tables (10_state.md R20). -/
def tselWidth (n : Nat) : Nat := max 1 (Nat.clog 2 n)

/-- Frames that are no command (30_encoding.md R88), by header fields. -/
def illegalHeader (opc subop : Byte) (len : Nat) : Prop :=
  (opc = 0x00#8 ∨ 0x05#8 ≤ opc)
    ∨ ((opc = 0x01#8 ∨ opc = 0x02#8 ∨ opc = 0x03#8) ∧ subop ≠ 0x00#8)
    ∨ ((opc = 0x02#8 ∨ opc = 0x03#8) ∧ len ≠ 8)

/-! ### The schedule as the source writes it (43_feistel_engine.md R154) -/

/-- Encryption pairs, phases A to D. -/
def encryptPairs : List (Fin 8 × Fin 8) :=
  [(0, 1), (2, 3), (4, 5), (6, 7)] ++ [(3, 4), (5, 6), (7, 0), (1, 2)]
    ++ [(5, 6), (7, 0), (1, 2), (3, 4)] ++ [(6, 5), (4, 3), (2, 1), (0, 7)]

/-- Decryption pairs, phases A to D. -/
def decryptPairs : List (Fin 8 × Fin 8) :=
  [(7, 0), (1, 2), (3, 4), (5, 6)] ++ [(4, 3), (2, 1), (0, 7), (6, 5)]
    ++ [(2, 1), (0, 7), (6, 5), (4, 3)] ++ [(7, 6), (5, 4), (3, 2), (1, 0)]

/-- One (update-n2-key, update-n1-key) pair (R153, R154) on `(n1, n2)`. -/
def pairStep (T : Fin 4 → Byte → Word) (ks : Subkeys) (n : Word × Word) (p : Fin 8 × Fin 8) :
    Word × Word :=
  let n2 := n.2 ^^^ roundFn T n.1 (ks.get p.1)
  let n1 := n.1 ^^^ roundFn T n2 (ks.get p.2)
  (n1, n2)

/-- The cipher over a list of pairs: load (R152), the pairs in order, swapped store (R155). -/
def cipherBlock (pairs : List (Fin 8 × Fin 8)) (T : Fin 4 → Byte → Word) (ks : Subkeys) (b : Block) :
    ByteString :=
  let n := pairs.foldl (pairStep T ks) (le32 b.b0 b.b1 b.b2 b.b3, le32 b.b4 b.b5 b.b6 b.b7)
  le32Bytes n.2 ++ le32Bytes n.1

end Sys2Proof.Machine
end

