-- ==== Sys2Proof/Certificates/Slice0/Obligations.lean ====
section
/-! DEFINITION. The statements for the provers. A response is read as the byte string appended to
`outbox`, a host's input as the head of `inbox` (log entries 4 and 5: the model's two ends of the
command interface). Each docstring names the rule of spec/ it formalises. -/

open Sys2Proof Sys2Proof.Machine

/-! ### The step and the frames -/

/-- 60_exceptions.md section 8 (R194), 30_encoding.md section 5 (R89). A frame at the head of the inbox
that decodes to a command is executed, on the state without that frame, and decoding gives only
well-formed commands. -/
def Obligations.StepRunsTheDecodedCommand : Prop :=
  ∀ (s : State) (bytes : ByteString) (rest : List HostInput) (i : Instr),
    s.inbox = .frame bytes :: rest → decode bytes = .ok i →
      i.wf = true ∧ step s = exec i { s with inbox := rest }

/-- 60_exceptions.md section 7 (R191): "between commands it is idle and keeps its context". That the step
of an engine without input is the identity is the model's (log entry 6). -/
def Obligations.IdleEngineKeepsItsState : Prop :=
  ∀ s : State, s.inbox = [] → step s = .next s

/-- 30_encoding.md section 5 (R88). On an idle engine, a whole frame with an illegal header is consumed,
changes no state and is answered with `IllegalCommand` and no payload; every other whole frame is a
well-formed command and is executed. -/
def Obligations.IllegalFramesChangeNothing : Prop :=
  ∀ (s : State) (opc subop lo hi : Byte) (payload : ByteString) (rest : List HostInput),
    s.idle = true → payload.length = le16 lo hi →
    s.inbox = .frame (opc :: subop :: lo :: hi :: payload) :: rest →
      (illegalHeader opc subop payload.length →
        step s = .next { s with
          inbox := rest, outbox := s.outbox ++ [[0x05#8, 0x00#8, 0x00#8, 0x00#8]] })
      ∧ (¬ illegalHeader opc subop payload.length →
        ∃ i : Instr, i.wf = true ∧ step s = exec i { s with inbox := rest })

/-- 60_exceptions.md section 3 (R185). The frame checks come before the command's own test: a block
frame of a wrong length is `IllegalCommand` on an engine without a key, and a `set_key` frame with a
stray `SUBOP` is `IllegalCommand` whatever its length; `SUBOP` of `configure` is tested before its
payload. -/
def Obligations.FrameChecksComeFirst : Prop :=
  (∀ (s : State) (opc lo hi : Byte) (payload : ByteString) (rest : List HostInput),
    opc = 0x02#8 ∨ opc = 0x03#8 → payload.length = le16 lo hi → payload.length ≠ 8 →
    s.keyValid = false → s.inbox = .frame (opc :: 0x00#8 :: lo :: hi :: payload) :: rest →
      ∃ t, step s = .next t ∧ t.outbox = s.outbox ++ [[0x05#8, 0x00#8, 0x00#8, 0x00#8]])
  ∧ (∀ (s : State) (subop lo hi : Byte) (key : ByteString) (rest : List HostInput),
    subop ≠ 0x00#8 → key.length = le16 lo hi → s.inbox = .frame (0x01#8 :: subop :: lo :: hi :: key) :: rest →
      ∃ t, step s = .next t ∧ t.outbox = s.outbox ++ [[0x05#8, 0x00#8, 0x00#8, 0x00#8]])
  ∧ (∀ (s : State) (op lo hi : Byte) (payload : ByteString) (rest : List HostInput),
    op ≠ 0x01#8 → payload.length = le16 lo hi → s.inbox = .frame (0x04#8 :: op :: lo :: hi :: payload) :: rest →
      ∃ t, step s = .next t ∧ t.outbox = s.outbox ++ [[0x03#8, 0x00#8, 0x00#8, 0x00#8]])

/-- 30_encoding.md section 5: "`decode(encode(c)) = c` for every abstract command". -/
def Obligations.DecodeInvertsEncode : Prop :=
  ∀ i : Instr, i.wf = true → decode (encode i) = .ok i

/-- 30_encoding.md sections 3 and 5: each frame of a command is the encoding of the command it decodes
to, so no two frames stand for one command. -/
def Obligations.EncodeInvertsDecode : Prop :=
  ∀ (bytes : ByteString) (i : Instr), decode bytes = .ok i → i.wf = true ∧ encode i = bytes

/-- 30_encoding.md R84: the rows of the opcode map as match and mask on the header word, tried top to
bottom, each with the command of its `OPC`; a header that matches none is an illegal frame. -/
def Obligations.OpcodeMapByMatchAndMask : Prop :=
  ∀ (opc subop lo hi : Byte) (payload : ByteString), payload.length = le16 lo hi →
    let H := headerWord opc subop lo hi
    let d := decode (opc :: subop :: lo :: hi :: payload)
    (H &&& 0x0000FFFF#32 = 0x00000001#32 → d = .ok (.setKey payload))
    ∧ (H &&& 0xFFFFFFFF#32 = 0x00080002#32 → ∃ b, payload = b.bytes ∧ d = .ok (.encryptBlock b))
    ∧ (H &&& 0xFFFFFFFF#32 = 0x00080003#32 → ∃ b, payload = b.bytes ∧ d = .ok (.decryptBlock b))
    ∧ (H &&& 0x0000FFFF#32 = 0x00000104#32 → d = .ok (.selectSbox payload))
    ∧ (H &&& 0x0000FFFF#32 ≠ 0x00000104#32 → H &&& 0x000000FF#32 = 0x00000004#32 →
        d = .ok (.configUnsupported subop payload))
    ∧ (H &&& 0x0000FFFF#32 ≠ 0x00000001#32 → H &&& 0xFFFFFFFF#32 ≠ 0x00080002#32 →
        H &&& 0xFFFFFFFF#32 ≠ 0x00080003#32 → H &&& 0x000000FF#32 ≠ 0x00000004#32 →
        ∃ e, d = .error e ∧ e ≠ .notWholeFrame)

/-- 30_encoding.md section 5, 44_configure.md (encoding example): frames written out byte by byte. -/
def Obligations.SampleFramesDecode : Prop :=
  decode [0x02#8, 0x00#8, 0x08#8, 0x00#8, 0x01#8, 0x23#8, 0x45#8, 0x67#8, 0x89#8, 0xAB#8, 0xCD#8, 0xEF#8] =
      .ok (.encryptBlock ⟨0x01#8, 0x23#8, 0x45#8, 0x67#8, 0x89#8, 0xAB#8, 0xCD#8, 0xEF#8⟩)
  ∧ decode [0x03#8, 0x00#8, 0x08#8, 0x00#8, 0x88#8, 0x98#8, 0x13#8, 0xD9#8, 0x24#8, 0x50#8, 0x7C#8, 0xE4#8] =
      .ok (.decryptBlock ⟨0x88#8, 0x98#8, 0x13#8, 0xD9#8, 0x24#8, 0x50#8, 0x7C#8, 0xE4#8⟩)
  ∧ decode [0x04#8, 0x01#8, 0x0A#8, 0x00#8,
        0x31#8, 0x2E#8, 0x33#8, 0x2E#8, 0x39#8, 0x39#8, 0x39#8, 0x39#8, 0x2E#8, 0x31#8] =
      .ok (.selectSbox [0x31#8, 0x2E#8, 0x33#8, 0x2E#8, 0x39#8, 0x39#8, 0x39#8, 0x39#8, 0x2E#8, 0x31#8])
  ∧ decode [0x01#8, 0x00#8, 0x00#8, 0x00#8] = .ok (.setKey [])
  ∧ decode [0x04#8, 0x07#8, 0x01#8, 0x00#8, 0xAA#8] = .ok (.configUnsupported 0x07#8 [0xAA#8])
  ∧ decode [0x00#8, 0x00#8, 0x00#8, 0x00#8] = .error .unknownOpc

/-! ### set_key -/

/-- 42_key_schedule.md R141: a 32-byte key, whatever its bytes, is accepted, and `K[i]` has `PBUF[4i]` in
bits 7:0, `PBUF[4i+1]` in bits 15:8, `PBUF[4i+2]` in bits 23:16, `PBUF[4i+3]` in bits 31:24. -/
def Obligations.KeyBytesFillSubkeysLittleEndian : Prop :=
  ∀ (s : State) (key : ByteString) (h : key.length = 32), ∃ t, exec (.setKey key) s = .next t ∧
    ∀ i : Fin 8,
      (t.k.get i).extractLsb' 0 8 = key[4 * i.val]'(by omega)
      ∧ (t.k.get i).extractLsb' 8 8 = key[4 * i.val + 1]'(by omega)
      ∧ (t.k.get i).extractLsb' 16 8 = key[4 * i.val + 2]'(by omega)
      ∧ (t.k.get i).extractLsb' 24 8 = key[4 * i.val + 3]'(by omega)

/-- 42_key_schedule.md, pseudocode of `set_key`: the whole next state of an accepted key. Nothing but
`K`, `KEY_VALID`, `TSEL`, `TSEL_VALID`, the forgotten buffers and the response changes. -/
def Obligations.SetKeyWritesTheContext : Prop :=
  ∀ (s : State) (key : ByteString) (h : key.length = 32),
    exec (.setKey key) s = .next { s with
      k := subkeysOf key h, keyValid := true
      tsel := if s.tselValid then s.tsel else defaultTable s.rrom, tselValid := true
      pbuf := [], obuf := [], outbox := s.outbox ++ [[0x00#8, 0x00#8, 0x00#8, 0x00#8]] }

/-- 42_key_schedule.md (InvalidKeyLength), 60_exceptions.md section 4: any other key length answers
`InvalidKeyLength` with no payload, and `K`, `KEY_VALID`, `TSEL`, `TSEL_VALID` keep their values; on an idle
engine no register changes. That an engine which is not idle zeroises its transient registers here is the
model's reading (log entry 15). -/
def Obligations.WrongKeyLengthKeepsTheContext : Prop :=
  ∀ (s : State) (key : ByteString), key.length ≠ 32 →
    exec (.setKey key) s = .next { s with
      n1 := 0, n2 := 0, rc := 0, dir := 0, pbuf := [], obuf := []
      outbox := s.outbox ++ [[0x01#8, 0x00#8, 0x00#8, 0x00#8]] }
    ∧ (s.idle = true → exec (.setKey key) s =
        .next { s with outbox := s.outbox ++ [[0x01#8, 0x00#8, 0x00#8, 0x00#8]] })

/-- 42_key_schedule.md, corner cases (a) and (b) of `set_key`: re-keying leaves nothing of the old key
and keeps the table; the same key again changes nothing but the response. -/
def Obligations.RekeyingReplacesTheKey : Prop :=
  ∀ (s : State) (key key' : ByteString), key.length = 32 → key'.length = 32 →
    ∃ t u v, exec (.setKey key) s = .next t ∧ exec (.setKey key') t = .next u
      ∧ exec (.setKey key') s = .next v ∧ u = { v with outbox := u.outbox }
      ∧ (key' = key → u = { t with outbox := u.outbox })

/-! ### The block commands -/

/-- 43_feistel_engine.md sections 1 and 2: `encrypt_block` on a keyed engine whose table words are `T`
runs the 16 encryption pairs as the source lists them, answers `OK` with the 8 bytes, and leaves
everything but the zeroised transient registers and the response unchanged. -/
def Obligations.EncryptBlockRunsTheEncryptionPairs : Prop :=
  ∀ (s : State) (T : Fin 4 → Byte → Word) (b : Block), s.keyValid = true → s.reads T →
    exec (.encryptBlock b) s = .next { s with
      n1 := 0, n2 := 0, rc := 0, dir := 0, pbuf := [], obuf := []
      outbox := s.outbox ++ [[0x00#8, 0x00#8, 0x08#8, 0x00#8] ++ cipherBlock encryptPairs T s.k b] }

/-- 43_feistel_engine.md sections 1 and 2: `decrypt_block`, the same with the decryption pairs. -/
def Obligations.DecryptBlockRunsTheDecryptionPairs : Prop :=
  ∀ (s : State) (T : Fin 4 → Byte → Word) (b : Block), s.keyValid = true → s.reads T →
    exec (.decryptBlock b) s = .next { s with
      n1 := 0, n2 := 0, rc := 0, dir := 0, pbuf := [], obuf := []
      outbox := s.outbox ++ [[0x00#8, 0x00#8, 0x08#8, 0x00#8] ++ cipherBlock decryptPairs T s.k b] }

/-- 43_feistel_engine.md section 3 (NoKey), 10_state.md section 7, 60_exceptions.md section 4: a block command
without a key answers `NoKey` with no payload; on an idle engine no register is written. That an engine
which is not idle zeroises its transient registers here is the model's reading (log entry 15). -/
def Obligations.BlockCommandWithoutKeyAnswersNoKey : Prop :=
  ∀ (s : State) (b : Block), s.keyValid = false →
    ∀ i ∈ [Instr.encryptBlock b, Instr.decryptBlock b],
      exec i s = .next { s with
        n1 := 0, n2 := 0, rc := 0, dir := 0, pbuf := [], obuf := []
        outbox := s.outbox ++ [[0x04#8, 0x00#8, 0x00#8, 0x00#8]] }
      ∧ (s.idle = true → exec i s =
          .next { s with outbox := s.outbox ++ [[0x04#8, 0x00#8, 0x00#8, 0x00#8]] })

/-- 43_feistel_engine.md section 1: "never mutated by encrypt/decrypt". The frame of both block commands,
whatever they answer: the context, the ROMs and the inbox are unchanged, and one response is added. -/
def Obligations.BlockCommandsKeepContextAndRoms : Prop :=
  ∀ (i : Instr) (s t : State), i.isBlock = true → exec i s = .next t →
    s.sameContext t ∧ t.srom = s.srom ∧ t.rrom = s.rrom ∧ t.inbox = s.inbox
      ∧ ∃ r, t.outbox = s.outbox ++ [r]

/-- 10_state.md R31: when a block command ends, with success or with an error, `N1`, `N2`, `RC` and `DIR`
are zero and no copy of the payload or of the response is kept in the engine. -/
def Obligations.BlockCommandsZeroise : Prop :=
  ∀ (i : Instr) (s t : State), i.isBlock = true → exec i s = .next t →
    t.n1 = 0 ∧ t.n2 = 0 ∧ t.rc = 0 ∧ t.dir = 0 ∧ t.pbuf = [] ∧ t.obuf = []

/-- 43_feistel_engine.md R156: `decrypt(encrypt(p)) = p` and `encrypt(decrypt(c)) = c`, for every key, every
block and every table contents whatever. -/
def Obligations.DecryptionInvertsEncryption : Prop :=
  ∀ (s : State) (T : Fin 4 → Byte → Word) (b : Block), s.keyValid = true → s.reads T →
    (∃ c t u, exec (.encryptBlock b) s = .next t
      ∧ t.outbox = s.outbox ++ [[0x00#8, 0x00#8, 0x08#8, 0x00#8] ++ Block.bytes c]
      ∧ exec (.decryptBlock c) t = .next u
      ∧ u.outbox = t.outbox ++ [[0x00#8, 0x00#8, 0x08#8, 0x00#8] ++ b.bytes])
    ∧ (∃ p t u, exec (.decryptBlock b) s = .next t
      ∧ t.outbox = s.outbox ++ [[0x00#8, 0x00#8, 0x08#8, 0x00#8] ++ Block.bytes p]
      ∧ exec (.encryptBlock p) t = .next u
      ∧ u.outbox = t.outbox ++ [[0x00#8, 0x00#8, 0x08#8, 0x00#8] ++ b.bytes])

/-- 43_feistel_engine.md R159: the response of a block command is a function of the block, `K` and the
words of the active table only, and a block command does not influence a later one. -/
def Obligations.BlockResponseDependsOnBlockKeyTable : Prop :=
  (∀ (i : Instr) (s s' : State) (T : Fin 4 → Byte → Word), i.isBlock = true →
    s.keyValid = true → s'.keyValid = true → s.reads T → s'.reads T → s'.k = s.k →
      ∃ r t t', exec i s = .next t ∧ t.outbox = s.outbox ++ [r]
        ∧ exec i s' = .next t' ∧ t'.outbox = s'.outbox ++ [r])
  ∧ (∀ (i j : Instr) (s t : State) (T : Fin 4 → Byte → Word), i.isBlock = true → j.isBlock = true →
    s.keyValid = true → s.reads T → exec i s = .next t →
      ∃ r u v, exec j s = .next u ∧ u.outbox = s.outbox ++ [r]
        ∧ exec j t = .next v ∧ v.outbox = t.outbox ++ [r])

/-- 43_feistel_engine.md, corner case (b): with eight equal subkeys the two block commands compute the same
function. -/
def Obligations.EqualSubkeysMakeDirectionsEqual : Prop :=
  ∀ (s : State) (T : Fin 4 → Byte → Word) (b : Block), s.keyValid = true → s.reads T →
    (∀ i j, s.k.get i = s.k.get j) → ∃ t, exec (.encryptBlock b) s = .next t ∧ exec (.decryptBlock b) s = .next t

/-- 43_feistel_engine.md R154: `Sched` is the source's two pair lists flattened; the decryption list is the
encryption list reversed; each index occurs four times in each list. -/
def Obligations.ScheduleIsTheSourcesPairLists : Prop :=
  (∀ p : Fin 16, encryptPairs[p.val]? = some (sched 0 ⟨2 * p, by omega⟩, sched 0 ⟨2 * p + 1, by omega⟩)
    ∧ decryptPairs[p.val]? = some (sched 1 ⟨2 * p, by omega⟩, sched 1 ⟨2 * p + 1, by omega⟩))
  ∧ encryptPairs.length = 16 ∧ decryptPairs.length = 16
  ∧ (∀ s : Fin 32, sched 1 s = sched 0 ⟨31 - s.val, by omega⟩)
  ∧ (∀ k : Fin 8, ((List.finRange 32).map (sched 0)).count k = 4
    ∧ ((List.finRange 32).map (sched 1)).count k = 4)

/-- 43_feistel_engine.md R153: the round application with `RC < 32`; even `RC` updates `N2` from `N1`, odd `RC`
updates `N1` from `N2`, `RC` advances by one, and nothing else changes. -/
def Obligations.RoundApplicationUpdatesOneRegister : Prop :=
  ∀ (T : Fin 4 → Byte → Word) (s : State) (h : s.rc.toNat < 32),
    let idx := sched s.dir ⟨s.rc.toNat, h⟩
    (s.rc.toNat % 2 = 0 → s.roundApplication T =
      { s with n2 := s.n2 ^^^ roundFn T s.n1 (s.k.get idx), rc := s.rc + 1 })
    ∧ (s.rc.toNat % 2 = 1 → s.roundApplication T =
      { s with n1 := s.n1 ^^^ roundFn T s.n2 (s.k.get idx), rc := s.rc + 1 })
    ∧ (s.roundApplication T).rc.toNat = s.rc.toNat + 1

/-- 43_feistel_engine.md R152: load puts word0 of the payload in `N1` and word1 in `N2`, little-endian, and `RC`
at 0, in both directions. -/
def Obligations.LoadPutsWordsInRegisters : Prop :=
  ∀ (s : State) (b : Block) (dir : BitVec 1) (h : ((s.accept b.bytes).direct dir).pbuf.length = Config.blockBytes),
    ((s.accept b.bytes).direct dir).load h = { s with
      pbuf := b.bytes, dir := dir, rc := 0
      n1 := b.b3 ++ b.b2 ++ b.b1 ++ b.b0, n2 := b.b7 ++ b.b6 ++ b.b5 ++ b.b4 }

/-- 43_feistel_engine.md R155: store writes word0 from `N2` and word1 from `N1`, little-endian, in both
directions. -/
def Obligations.StoreSwapsTheRegisters : Prop :=
  ∀ s : State, s.store = { s with
    obuf := [s.n2.extractLsb' 0 8, s.n2.extractLsb' 8 8, s.n2.extractLsb' 16 8, s.n2.extractLsb' 24 8,
             s.n1.extractLsb' 0 8, s.n1.extractLsb' 8 8, s.n1.extractLsb' 16 8, s.n1.extractLsb' 24 8] }

/-- 43_feistel_engine.md section 3 (R157), 10_state.md section 3 (R22): from `RC = 0`, `n` applications leave
`RC = n` up to 32, and further ones change nothing. A block command of a keyed engine whose table words are
`T` loads with `RC = 0`, makes 32 of them, whatever the key, the block and the table, and stores with
`RC = 32`, which fewer applications do not reach. -/
def Obligations.ExactlyThirtyTwoApplications : Prop :=
  (∀ (T : Fin 4 → Byte → Word) (s : State), s.rc = 0 →
    (∀ n, (s.roundApplications T n).rc.toNat = min n 32)
    ∧ ∀ m, s.roundApplications T (32 + m) = s.roundApplications T 32)
  ∧ ∀ (s : State) (T : Fin 4 → Byte → Word) (b : Block) (i : Instr) (dir : BitVec 1),
    i = .encryptBlock b ∧ dir = 0 ∨ i = .decryptBlock b ∧ dir = 1 → s.keyValid = true → s.reads T →
      ∃ loaded : State, loaded = ((s.accept b.bytes).direct dir).load (length_pbuf_of_block s dir b)
        ∧ loaded.rc = 0
        ∧ exec i s = .next (loaded.roundApplications T 32).store.finishBlock
        ∧ (loaded.roundApplications T 32).rc = 32
        ∧ ∀ n < 32, (loaded.roundApplications T n).rc.toNat = n

/-! ### The table compiler and the round function -/

/-- 40_table_compiler.md R112: the compiler's formula, for every byte position and byte value, on the word
the compiled table holds there. -/
def Obligations.CompilerFollowsTheFormula : Prop :=
  ∀ (C : CompactTable) (i : Fin 4) (j : Byte),
    let low : Nat := ((C[j.toNat % 16])[2 * i.val]).toNat
    let high : Nat := ((C[j.toNat / 16]'(by omega))[2 * i.val + 1]).toNat
    let combined : Nat := low + 16 * high
    (compile C).length = 1024
    ∧ (compile C)[i.val * 256 + j.toNat]? = some ((BitVec.ofNat 32 (combined * 256 ^ i.val)).rotateLeft 11)

/-- 40_table_compiler.md R115: the table invariant. The OR of the four entries of a compiled table that the
bytes of `v` index is `rol32(nibble_substitute_C(v), 11)`. -/
def Obligations.CompiledTablesFoldSubstitutionAndRotation : Prop :=
  ∀ (C : CompactTable) (v : Word), ∃ e0 e1 e2 e3,
    (compile C)[(byteN 0 v).toNat]? = some e0
    ∧ (compile C)[256 + (byteN 1 v).toNat]? = some e1
    ∧ (compile C)[512 + (byteN 2 v).toNat]? = some e2
    ∧ (compile C)[768 + (byteN 3 v).toNat]? = some e3
    ∧ e0 ||| e1 ||| e2 ||| e3 = (nibbleSubstitute C v).rotateLeft 11

/-- 00_scope.md section 6: nibble `n` of `nibble_substitute_C(v)` is `C[nib(v, n)][n]`. -/
def Obligations.NibbleSubstituteByNibbles : Prop :=
  ∀ (C : CompactTable) (v : Word) (n : Fin 8),
    nib (nibbleSubstitute C v) n = (C[(nib v n).toNat]'(nib v n).isLt)[n.val]

/-- 40_table_compiler.md section 4, bit placement: the entries of the four byte positions have set bits only
in disjoint fields, so their OR is their exclusive-or and their sum. -/
def Obligations.EntriesOccupyDisjointBits : Prop :=
  ∀ (C : CompactTable) (j0 j1 j2 j3 : Byte),
    let e0 := compileEntry C 0 j0
    let e1 := compileEntry C 1 j1
    let e2 := compileEntry C 2 j2
    let e3 := compileEntry C 3 j3
    e0 &&& ~~~0x0007F800#32 = 0 ∧ e1 &&& ~~~0x07F80000#32 = 0
    ∧ e2 &&& ~~~0xF8000007#32 = 0 ∧ e3 &&& ~~~0x000007F8#32 = 0
    ∧ e0 ||| e1 ||| e2 ||| e3 = e0 ^^^ e1 ^^^ e2 ^^^ e3
    ∧ e0 ||| e1 ||| e2 ||| e3 = e0 + e1 + e2 + e3

/-- 20_memory.md R51: the contents of `SROM`, `NTAB * 1024` words, table `t` compiled from record `t`. -/
def Obligations.SromHoldsTheCompiledTables : Prop :=
  ∀ set : SboxSet, (sromImage set).length = set.length * 1024
    ∧ ∀ (t : Nat) (h : t < set.length) (i : Fin 4) (j : Byte),
      (sromImage set)[t * 1024 + i.val * 256 + j.toNat]? = (compile set[t].compact)[i.val * 256 + j.toNat]?

/-- 41_round_function.md, table-free form: on compiled ROMs the round function adds, substitutes the eight
nibbles and rotates. -/
def Obligations.RoundFunctionWithoutTables : Prop :=
  ∀ (set : SboxSet) (s : State) (T : Fin 4 → Byte → Word) (r : SboxRecord) (x k : Word),
    s.holdsCompiled set → s.reads T → set[s.tsel]? = some r →
      roundFn T x k = (nibbleSubstitute r.compact (x + k)).rotateLeft 11

/-- 41_round_function.md, corner cases (a) and (b): only the sum matters, and the operands commute. -/
def Obligations.RoundFunctionDependsOnTheSum : Prop :=
  ∀ (T : Fin 4 → Byte → Word) (x k x' k' : Word),
    roundFn T x k = roundFn T (x + k) 0 ∧ roundFn T x k = roundFn T k x
    ∧ ((x.toNat + k.toNat) % 2 ^ 32 = (x'.toNat + k'.toNat) % 2 ^ 32 → roundFn T x k = roundFn T x' k')

/-! ### configure -/

/-- 44_configure.md (select_sbox), 60_exceptions.md section 4: `select_sbox` with an OID of the registry writes
`TSEL` and `TSEL_VALID`, answers `OK` with no payload and changes nothing else; with another payload it
answers `SboxNotFound`, the context keeps its table, on an idle engine no register changes, and a later
`encrypt_block` answers as it would have before; the rule's encoding example decodes to the selection of its
OID. That an engine which is not idle zeroises its transient registers on failure is the model's reading
(log entry 15). -/
def Obligations.SelectSboxReplacesTheTableOrKeepsIt : Prop :=
  (∀ (s : State) (oid : ByteString) (n : Nat), lookup s.rrom oid = some n →
    exec (.selectSbox oid) s = .next { s with
      tsel := n, tselValid := true, pbuf := [], obuf := []
      outbox := s.outbox ++ [[0x00#8, 0x00#8, 0x00#8, 0x00#8]] })
  ∧ (∀ (s : State) (oid : ByteString), lookup s.rrom oid = none →
    exec (.selectSbox oid) s = .next { s with
      n1 := 0, n2 := 0, rc := 0, dir := 0, pbuf := [], obuf := []
      outbox := s.outbox ++ [[0x02#8, 0x00#8, 0x00#8, 0x00#8]] }
    ∧ (s.idle = true → exec (.selectSbox oid) s =
        .next { s with outbox := s.outbox ++ [[0x02#8, 0x00#8, 0x00#8, 0x00#8]] }))
  ∧ (∀ (s t u : State) (oid : ByteString) (b : Block), lookup s.rrom oid = none →
    exec (.selectSbox oid) s = .next t → exec (.encryptBlock b) s = .next u →
      ∃ r v, u.outbox = s.outbox ++ [r] ∧ exec (.encryptBlock b) t = .next v ∧ v.outbox = t.outbox ++ [r])
  ∧ decode [0x04#8, 0x01#8, 0x0A#8, 0x00#8,
        0x31#8, 0x2E#8, 0x33#8, 0x2E#8, 0x39#8, 0x39#8, 0x39#8, 0x39#8, 0x2E#8, 0x31#8] =
      .ok (.selectSbox [0x31#8, 0x2E#8, 0x33#8, 0x2E#8, 0x39#8, 0x39#8, 0x39#8, 0x39#8, 0x2E#8, 0x31#8])

/-- 44_configure.md R172: `Lookup` gives the index of the first record whose OID is the payload, byte for byte,
and none exactly when no record has it; in a set that meets its constraint neither the empty payload nor
one with a zero byte matches. -/
def Obligations.LookupFindsTheFirstRecord : Prop :=
  ∀ (set : SboxSet) (oid : ByteString),
    (∀ n, lookup (rromImage set) oid = some n ↔
      ∃ h : n < set.length, set[n].oid = oid ∧ ∀ m (hm : m < n), set[m].oid ≠ oid)
    ∧ (lookup (rromImage set) oid = none ↔ ∀ r ∈ set, r.oid ≠ oid)
    ∧ (set.wf = true → lookup (rromImage set) [] = none
      ∧ (0x00#8 ∈ oid → lookup (rromImage set) oid = none))

/-- 44_configure.md (UnsupportedOperation), 60_exceptions.md section 4: a `configure` whose `SUBOP` is not
`0x01` answers `UnsupportedOperation` with no payload, whatever its payload; on an idle engine no register
changes. That an engine which is not idle zeroises its transient registers here is the model's reading
(log entry 15). -/
def Obligations.OtherConfigureIsUnsupported : Prop :=
  ∀ (s : State) (op : Byte) (payload : ByteString), op ≠ 0x01#8 →
    exec (.configUnsupported op payload) s = .next { s with
      n1 := 0, n2 := 0, rc := 0, dir := 0, pbuf := [], obuf := []
      outbox := s.outbox ++ [[0x03#8, 0x00#8, 0x00#8, 0x00#8]] }
    ∧ (s.idle = true → exec (.configUnsupported op payload) s =
        .next { s with outbox := s.outbox ++ [[0x03#8, 0x00#8, 0x00#8, 0x00#8]] })

/-- 70_reset_and_hazards.md section 2 (R216), 44_configure.md section on independence (R174): a key and a
selection end in the same state in either order. -/
def Obligations.KeyAndSelectionCommute : Prop :=
  ∀ (s : State) (key oid : ByteString) (n : Nat), key.length = 32 → lookup s.rrom oid = some n →
    ∃ a b t, exec (.selectSbox oid) s = .next a ∧ exec (.setKey key) a = .next t
      ∧ exec (.setKey key) s = .next b ∧ exec (.selectSbox oid) b = .next t

/-- 42_key_schedule.md, consequence of the default table: a context keyed with no selection is the one that
selects the default OID, before or after the key; and where the OIDs of the set are distinct (00_scope.md
section 5), the OID of the record named "test" is the one that selects it. -/
def Obligations.DefaultTableIsTheTestOid : Prop :=
  (∀ (set : SboxSet) (oid : ByteString), (set.map (fun r => r.oid)).Nodup → set.oidTest = some oid →
    lookup (rromImage set) oid = some (defaultTable (rromImage set)))
  ∧ ∀ (s : State) (key oid : ByteString), key.length = 32 → s.tselValid = false →
    lookup s.rrom oid = some (defaultTable s.rrom) →
      ∃ t a u v, exec (.setKey key) s = .next t
        ∧ exec (.selectSbox oid) s = .next a ∧ exec (.setKey key) a = .next u
        ∧ exec (.selectSbox oid) t = .next v
        ∧ u = { t with outbox := u.outbox } ∧ v = { t with outbox := v.outbox }

/-! ### Errors and responses -/

/-- 60_exceptions.md R184: whatever frame is answered with a status other than `OK`, the context keeps its values,
the transient registers are zero, the ROMs and the inbox are unchanged, and the response is the status and
no payload. -/
def Obligations.ErrorsLeaveTheContext : Prop :=
  ∀ (bytes r : ByteString) (s t : State), runFrame bytes s = .next t → t.outbox = s.outbox ++ [r] →
    r[0]? ≠ some 0x00#8 →
      s.sameContext t ∧ t.idle = true ∧ t.srom = s.srom ∧ t.rrom = s.rrom ∧ t.inbox = s.inbox
      ∧ ∃ st : Status, st ≠ .ok ∧ r = [st.code, 0x00#8, 0x00#8, 0x00#8]

/-- 60_exceptions.md section 1, table of possible statuses (R182). -/
def Obligations.EveryCommandEndsWithAListedStatus : Prop :=
  ∀ (i : Instr) (s t : State), i.wf = true → exec i s = .next t →
    ∃ (st : Status) (payload : ByteString), st ∈ i.possible ∧ t.outbox = s.outbox ++ [rspFrame st payload]

/-- 30_encoding.md R83, for a frame that decodes: one response, `STATUS` a listed code, byte 1 zero, `RLEN` the
number of payload bytes, 8 for a block command that ends with `OK` and 0 in every other case; for an illegal
frame `RLEN` is 0. -/
def Obligations.OneWellFormedResponsePerFrame : Prop :=
  ∀ (bytes : ByteString) (s t : State), runFrame bytes s = .next t →
    ∃ (st : Status) (lo hi : Byte) (payload : ByteString),
      t.outbox = s.outbox ++ [st.code :: 0x00#8 :: lo :: hi :: payload]
      ∧ payload.length = le16 lo hi
      ∧ (payload.length = 8 ∧ st = .ok ∧ (∃ i, decode bytes = .ok i ∧ i.isBlock = true)
        ∨ payload.length = 0 ∧ ¬ (st = .ok ∧ ∃ i, decode bytes = .ok i ∧ i.isBlock = true))

/-- 30_encoding.md section 2: a response frame is read back as its status and payload. -/
def Obligations.ResponsesReadBack : Prop :=
  ∀ (st : Status) (payload : ByteString), payload.length ≤ maxPayload →
    parseRsp (rspFrame st payload) = some (st, payload)

/-- 60_exceptions.md section 5 (R186): errors leave no trace. On an idle engine, after a frame that was answered
with an error, every frame is answered as if the failed one had never been sent, and the state is the one
it would have been but for the extra response. -/
def Obligations.FailedCommandsLeaveNoTrace : Prop :=
  ∀ (f g : ByteString) (s t u : State) (st : Status), s.idle = true → st ≠ .ok →
    runFrame f s = .next t → t.outbox = s.outbox ++ [[st.code, 0x00#8, 0x00#8, 0x00#8]] →
    runFrame g s = .next u →
      ∃ r, u.outbox = s.outbox ++ [r] ∧ runFrame g t = .next { u with outbox := t.outbox ++ [r] }

/-! ### Reset -/

/-- 10_state.md section 9 (R32), 70_reset_and_hazards.md section 1 (R210): the values the spec gives for reset, at
the model's reset state and after the host's reset input; the ROMs are not affected, and no response is
delivered. `TSEL` has no value there and none is stated (log entry 3). -/
def Obligations.ResetPutsEveryRegisterAtItsValue : Prop :=
  (∀ i, State.reset.k.get i = 0x00000000#32) ∧ State.reset.keyValid = false ∧ State.reset.tselValid = false
  ∧ State.reset.n1 = 0 ∧ State.reset.n2 = 0 ∧ State.reset.rc = 0 ∧ State.reset.dir = 0
  ∧ State.reset.srom = sromImage Config.sboxSet ∧ State.reset.rrom = rromImage Config.sboxSet
  ∧ ∀ (s : State) (rest : List HostInput), s.inbox = .reset :: rest →
    ∃ t, step s = .next t ∧ (∀ i, t.k.get i = 0x00000000#32) ∧ t.keyValid = false ∧ t.tselValid = false
      ∧ t.idle = true ∧ t.srom = s.srom ∧ t.rrom = s.rrom ∧ t.inbox = rest ∧ t.outbox = s.outbox

/-- 70_reset_and_hazards.md section 1 (R211): a command cut short by reset gets no response, and the state is the
reset state whatever the command had written: the step is the one of a reset with no command. -/
def Obligations.ResetAbandonsTheCommand : Prop :=
  ∀ (s : State) (bytes : ByteString) (rest : List HostInput), wholeFrame bytes = true →
    s.inbox = .frameThenReset bytes :: rest →
      ∃ t, step s = .next t ∧ step { s with inbox := .reset :: rest } = .next t ∧ t.outbox = s.outbox

/-! ### Whole-machine rules -/

/-- 10_state.md sections 1, 4 and 7, 20_memory.md section 1: every step keeps the invariant, from every state
that meets it. -/
def Obligations.EveryStepKeepsTheInvariant : Prop :=
  ∀ s t : State, Invariant s → step s = .next t → Invariant t

/-- 10_state.md section 9, 00_scope.md section 5: the reset state meets the invariant for every table set that
meets its constraint. -/
def Obligations.ResetMeetsTheInvariant : Prop :=
  (∀ set : SboxSet, set.wf = true → Invariant (State.resetWith set))
  ∧ State.reset = State.resetWith Config.sboxSet

/-- 70_reset_and_hazards.md section 4 (R221): every input is dealt with. From the invariant the step never faults,
and it is refused only for an input that is no whole frame. Both stops are the model's: the refusal
`notWholeFrame` (log entry 6), and the fault `noActiveTable`, which the invariant excludes (log entry 7). -/
def Obligations.NoFaultFromTheInvariant : Prop :=
  ∀ s : State, Invariant s →
    (∃ t, step s = .next t)
    ∨ (step s = .refused .notWholeFrame ∧ ∃ bytes rest, wholeFrame bytes = false
      ∧ (s.inbox = .frame bytes :: rest ∨ s.inbox = .frameThenReset bytes :: rest))

/-- 60_exceptions.md section 8 (R196): commands are executed in the order their frames are accepted, one
response each in the same order, none dropped. From the invariant, `n` whole frames take `n` steps, empty
the inbox and add `n` responses after those delivered before. After `k` steps the first `k` frames have been
accepted and the first `k` responses delivered, and step `k` deals with frame `k` on that state and delivers
response `k`. -/
def Obligations.EveryFrameGetsOneResponseInOrder : Prop :=
  ∀ (fs : List ByteString) (s : State), Invariant s → (∀ f ∈ fs, wholeFrame f = true) →
    s.inbox = fs.map HostInput.frame →
      ∃ t rs, Sys2Proof.core.run fs.length s = .next t ∧ t.inbox = [] ∧ rs.length = fs.length
        ∧ t.outbox = s.outbox ++ rs ∧ Invariant t
        ∧ ∀ (k : Nat) (f : ByteString), fs[k]? = some f → ∃ u v r,
          Sys2Proof.core.run k s = .next u ∧ u.inbox = (fs.drop k).map HostInput.frame
          ∧ u.outbox = s.outbox ++ rs.take k ∧ rs[k]? = some r
          ∧ runFrame f { u with inbox := (fs.drop (k + 1)).map HostInput.frame } = .next v
          ∧ Sys2Proof.core.run (k + 1) s = .next v ∧ v.outbox = u.outbox ++ [r]

/-- 20_memory.md sections 1 and 7: no step writes a ROM. -/
def Obligations.RomsAreReadOnly : Prop :=
  ∀ s t : State, step s = .next t → t.srom = s.srom ∧ t.rrom = s.rrom

/-- 10_state.md section 4 (R24 to R28): the only writers of the cipher context, over all steps, and what they
write. `K` and `KEY_VALID` change only by an accepted key or a reset; `TSEL` by a selection, by the first key
where no table was chosen, or by a reset; `TSEL_VALID` by a selection, an accepted key or a reset. What a
reset leaves in `TSEL` is not stated (log entry 3). -/
def Obligations.OnlyNamedWritersOfTheContext : Prop :=
  ∀ s t : State, step s = .next t →
    (t.k ≠ s.k → (∃ key, ∃ h : key.length = 32, s.keyInput key ∧ t.k = subkeysOf key h)
      ∨ (s.resetInput ∧ t.k = Subkeys.zero))
    ∧ (t.keyValid ≠ s.keyValid → (t.keyValid = true ∧ ∃ key, s.keyInput key)
      ∨ (t.keyValid = false ∧ s.resetInput))
    ∧ (t.tsel ≠ s.tsel → s.selectionInput t.tsel
      ∨ (s.tselValid = false ∧ t.tsel = defaultTable s.rrom ∧ ∃ key, s.keyInput key)
      ∨ s.resetInput)
    ∧ (t.tselValid ≠ s.tselValid →
      (t.tselValid = true ∧ (s.selectionInput t.tsel ∨ ∃ key, s.keyInput key))
      ∨ (t.tselValid = false ∧ s.resetInput))

/-- 10_state.md section 4 (R26, R28): no step but a reset clears `KEY_VALID` or `TSEL_VALID`. -/
def Obligations.OnlyResetClearsTheFlags : Prop :=
  ∀ s t : State, step s = .next t →
    (s.keyValid = true ∧ t.keyValid = false ∨ s.tselValid = true ∧ t.tselValid = false) →
      ∃ rest, s.inbox = .reset :: rest ∨ ∃ bytes, s.inbox = .frameThenReset bytes :: rest

/-- 10_state.md section 4 (R29): in a state of the invariant a keyed engine can read `TSEL` without a further
test: its table is in `SROM`, and `TSEL` fits its width. -/
def Obligations.KeyedEngineHasItsTable : Prop :=
  ∀ s : State, Invariant s → s.keyValid = true →
    (∃ T, s.reads T) ∧ s.tsel < registrySize s.rrom ∧ s.tsel < 2 ^ tselWidth (registrySize s.rrom)

/-- 10_state.md section 4 (R25, R26): no command returns a bit of `K` but through a block command with a key.
Changing `K` changes no response of any other command. -/
def Obligations.KeysAreNotReadBack : Prop :=
  ∀ (i : Instr) (s t : State) (ks : Subkeys), i.isBlock = false ∨ s.keyValid = false →
    exec i s = .next t → ∃ u, exec i { s with k := ks } = .next u ∧ u = { t with k := u.k }

/-- 10_state.md section 4 (R28): while `TSEL_VALID = 0` no command reads `TSEL`. Changing `TSEL` then changes
nothing in the next state but `TSEL` itself, and not even that once a table is chosen; so the model's value
of `TSEL` at reset (log entry 3) is never seen. -/
def Obligations.UnchosenTableIsNeverRead : Prop :=
  ∀ (i : Instr) (s t : State) (x : Nat), s.tselValid = false → exec i s = .next t →
    exec i { s with tsel := x } = .next { t with tsel := if t.tselValid then t.tsel else x }

/-- 60_exceptions.md section 8 (R197): instances share nothing writable. A step of one leaves the others as they
were, steps of two instances can be taken in either order, and the ROMs stay shared. -/
def Obligations.InstancesAreIndependent : Prop :=
  ∀ (sys a : System) (m : Nat), System.stepInstance sys m = .next a →
    (∀ n, n ≠ m → a[n]? = sys[n]?)
    ∧ (System.sharesRoms sys = true → System.sharesRoms a = true)
    ∧ ∀ (b : System) (n : Nat), n ≠ m → System.stepInstance a n = .next b →
      ∃ c, System.stepInstance sys n = .next c ∧ System.stepInstance c m = .next b

/-- 30_encoding.md section 7 (R91): the line a command is written as is assembled to that command. -/
def Obligations.TextOfACommandReadsBack : Prop :=
  ∀ i : Instr, i.wf = true → Text.assemble (Text.disassemble i) = some i
end

