-- ==== Sys2Proof/Laws/Bits.lean ====
section
/-! SUPPORT. The bit notation against the library's: `le32` is concatenation, `byteN` its inverse,
`rol32` the library's rotation. -/

namespace Sys2Proof

/-- `le32` puts the first byte lowest (00_scope.md R11). -/
theorem le32_eq_append (a b c d : Byte) : le32 a b c d = d ++ c ++ b ++ a := by
  apply BitVec.eq_of_getLsbD_eq
  intro i hi
  change _ = BitVec.getLsbD (d ++ c ++ b ++ a) i
  simp only [le32, zext32, BitVec.getLsbD_or, BitVec.getLsbD_shiftLeft, BitVec.getLsbD_setWidth,
    BitVec.getLsbD_append]
  by_cases h0 : i < 8
  · have h1 : i < 16 := by omega
    have h2 : i < 24 := by omega
    simp [h0, h1, h2, hi]
  · have e0 : a.getLsbD i = false := BitVec.getLsbD_of_ge _ _ (by omega)
    by_cases h1 : i < 16
    · have h2 : i < 24 := by omega
      have h3 : i - 8 < 8 := by omega
      have h4 : i - 8 < 32 := by omega
      simp [h0, h1, h2, h3, h4, hi, e0]
    · have e1 : b.getLsbD (i - 8) = false := BitVec.getLsbD_of_ge _ _ (by omega)
      by_cases h2 : i < 24
      · have h3 : i - 8 - 8 < 8 := by omega
        have h4 : i - 16 < 32 := by omega
        have h5 : i - 8 - 8 = i - 16 := by omega
        have h6 : ¬ i - 8 < 8 := by omega
        have h7 : i - 16 < 8 := by omega
        simp [h0, h1, h2, h4, hi, e0, e1, h5, h6, h7]
      · have e2 : c.getLsbD (i - 16) = false := BitVec.getLsbD_of_ge _ _ (by omega)
        have h4 : i - 24 < 32 := by omega
        have h5 : i - 8 - 8 = i - 16 := by omega
        have h8 : i - 16 - 8 = i - 24 := by omega
        have h6 : ¬ i - 8 < 8 := by omega
        have h7 : ¬ i - 16 < 8 := by omega
        simp [h0, h1, h2, h4, hi, e0, e1, e2, h5, h6, h7, h8]

/-- The four bytes of a word, by their bits. -/
theorem byteN_le32 (a b c d : Byte) :
    byteN 0 (le32 a b c d) = a ∧ byteN 1 (le32 a b c d) = b ∧ byteN 2 (le32 a b c d) = c
      ∧ byteN 3 (le32 a b c d) = d := by
  have e := le32_eq_append a b c d
  refine ⟨?_, ?_, ?_, ?_⟩ <;> rw [e] <;> apply BitVec.eq_of_getLsbD_eq <;> intro i hi
  · change (BitVec.extractLsb' 0 8 (d ++ c ++ b ++ a)).getLsbD i = _
    simp only [BitVec.getLsbD_extractLsb', BitVec.getLsbD_append, hi, Nat.zero_add]
    simp
  · change (BitVec.extractLsb' 8 8 (d ++ c ++ b ++ a)).getLsbD i = _
    simp only [BitVec.getLsbD_extractLsb', BitVec.getLsbD_append]
    simp [hi]
  · change (BitVec.extractLsb' 16 8 (d ++ c ++ b ++ a)).getLsbD i = _
    have h1 : ¬ 16 + i < 8 := by omega
    have h2 : ¬ 16 + i - 8 < 8 := by omega
    have h3 : 16 + i - 8 - 8 = i := by omega
    simp only [BitVec.getLsbD_extractLsb', BitVec.getLsbD_append]
    simp [hi, h1, h2, h3]
  · change (BitVec.extractLsb' 24 8 (d ++ c ++ b ++ a)).getLsbD i = _
    have h1 : ¬ 24 + i < 8 := by omega
    have h2 : ¬ 24 + i - 8 < 8 := by omega
    have h4 : ¬ 24 + i - 8 - 8 < 8 := by omega
    have h3 : 24 + i - 8 - 8 - 8 = i := by omega
    simp only [BitVec.getLsbD_extractLsb', BitVec.getLsbD_append]
    simp [hi, h1, h2, h3, h4]

theorem le32Bytes_le32 (a b c d : Byte) : le32Bytes (le32 a b c d) = [a, b, c, d] := by
  obtain ⟨h0, h1, h2, h3⟩ := byteN_le32 a b c d
  simp [le32Bytes, h0, h1, h2, h3]

/-- A word is the little-endian word of its bytes. -/
theorem le32_byteN (w : Word) : le32 (byteN 0 w) (byteN 1 w) (byteN 2 w) (byteN 3 w) = w := by
  rw [le32_eq_append]
  apply BitVec.eq_of_getLsbD_eq
  intro i hi
  simp only [byteN, BitVec.getLsbD_append, BitVec.getLsbD_extractLsb']
  by_cases h0 : i < 8
  · simp [h0]
  · by_cases h1 : i - 8 < 8
    · have e : 8 + (i - 8) = i := by omega
      simp [h0, h1, e]
    · by_cases h2 : i - 8 - 8 < 8
      · have e : 16 + (i - 8 - 8) = i := by omega
        simp [h0, h1, h2, e]
      · have h3 : i - 8 - 8 - 8 < 8 := by omega
        have e : 24 + (i - 8 - 8 - 8) = i := by omega
        simp [h0, h1, h2, h3, e]

/-- `rol32` is the library's rotation to the left (00_scope.md R11). -/
theorem rol32_eq (a : Word) (n : Nat) (h : n < 32) : rol32 a n = a.rotateLeft n := by
  simp [rol32, BitVec.rotateLeft, BitVec.rotateLeftAux, Nat.mod_eq_of_lt h]

end Sys2Proof
end

