-- ==== Sys2Proof/Laws/Compiler.lean ====
section
/-! SUPPORT. The ROM images: their sizes, and which word or record stands where. -/

namespace Sys2Proof.Machine

theorem length_flatMap_const {α β : Type} (l : List α) (f : α → List β) (n : Nat)
    (h : ∀ a ∈ l, (f a).length = n) : (l.flatMap f).length = l.length * n := by
  induction l with
  | nil => simp
  | cons a l ih =>
    simp only [List.flatMap_cons, List.length_append, List.length_cons]
    rw [h a (by simp), ih (fun b hb => h b (by simp [hb]))]
    ring

/-- Where an element of the `q`-th of equally long parts stands. -/
theorem getElem?_flatMap_const {α β : Type} (f : α → List β) (n : Nat) (l : List α)
    (h : ∀ a ∈ l, (f a).length = n) (q r : Nat) (hr : r < n) :
    (l.flatMap f)[q * n + r]? = (l[q]?).bind (fun a => (f a)[r]?) := by
  induction l generalizing q with
  | nil => simp
  | cons a l ih =>
    have ha : (f a).length = n := h a (by simp)
    cases q with
    | zero => simp [List.getElem?_append_left, ha, hr]
    | succ q =>
      have : (f a).length ≤ (q + 1) * n + r := by rw [ha]; nlinarith
      rw [List.flatMap_cons, List.getElem?_append_right this, ha]
      have e : (q + 1) * n + r - n = q * n + r := by
        rw [Nat.add_mul]
        omega
      rw [e, ih (fun b hb => h b (by simp [hb]))]
      simp

@[simp] theorem length_compile (C : CompactTable) : (compile C).length = 1024 := by
  unfold compile
  rw [length_flatMap_const _ _ 256 (by simp)]
  simp

/-- `compile(C)` holds `E[i][j]` at `i*256 + j` (20_memory.md R52). -/
theorem getElem?_compile (C : CompactTable) (i : Fin 4) (j : Byte) :
    (compile C)[i.val * 256 + j.toNat]? = some (compileEntry C i j) := by
  unfold compile
  rw [getElem?_flatMap_const _ 256 _ (by simp) _ _ j.isLt]
  have hj : j.toNat < 256 := j.isLt
  simp [hj]

@[simp] theorem length_sromImage (set : SboxSet) : (sromImage set).length = set.length * 1024 :=
  length_flatMap_const _ _ _ (by simp)

/-- `SROM` holds the word `n` of table `t` at `t*1024 + n` (20_memory.md R52). -/
theorem getElem?_sromImage (set : SboxSet) (t n : Nat) (hn : n < 1024) :
    (sromImage set)[t * 1024 + n]? = (set[t]?).bind (fun r => (compile r.compact)[n]?) :=
  getElem?_flatMap_const _ _ _ (by simp) _ _ hn

end Sys2Proof.Machine
end

