-- ==== Sys2Proof/Laws/Frames.lean ====
section
/-! SUPPORT. The frame layer, one lemma per function: lengths, blocks, what the decoder answers on a
frame the encoder's parts make, and what an answer of the decoder says of its frame. -/

namespace Sys2Proof

theorem le16_le16Bytes {n : Nat} (h : n ≤ maxPayload) :
    le16 (BitVec.ofNat 8 n) (BitVec.ofNat 8 (n / 256)) = n := by
  simp only [le16, BitVec.toNat_ofNat, maxPayload] at *
  omega

theorem le16_le (lo hi : Byte) : le16 lo hi ≤ maxPayload := by
  have := lo.isLt
  have := hi.isLt
  simp only [le16, maxPayload]
  omega

theorem le16Bytes_le16 (lo hi : Byte) : le16Bytes (le16 lo hi) = [lo, hi] := by
  have h0 := lo.isLt
  have h1 := hi.isLt
  simp only [le16Bytes, le16, List.cons.injEq, and_true]
  constructor <;> apply BitVec.eq_of_toNat_eq <;> simp only [BitVec.toNat_ofNat] <;> omega

@[simp] theorem Block.length_bytes (b : Block) : b.bytes.length = 8 := rfl

@[simp] theorem Block.ofBytes_bytes (b : Block) : Block.ofBytes b.bytes = some b := rfl

theorem Block.ofBytes_eq_some {l : ByteString} {b : Block} : Block.ofBytes l = some b ↔ l = b.bytes := by
  constructor
  · unfold Block.ofBytes
    split
    · rintro ⟨⟩
      rfl
    · simp
  · rintro rfl
    rfl

theorem Block.ofBytes_eq_none {l : ByteString} : Block.ofBytes l = none ↔ l.length ≠ 8 := by
  constructor
  · intro h hl
    obtain ⟨_, _, _, _, _, _, _, _, rfl⟩ : ∃ a b c d e f g h, l = [a, b, c, d, e, f, g, h] := by
      match l, hl with
      | [a, b, c, d, e, f, g, h], _ => exact ⟨a, b, c, d, e, f, g, h, rfl⟩
    simp [Block.ofBytes] at h
  · intro h
    cases hb : Block.ofBytes l with
    | none => rfl
    | some b => exact absurd (by rw [Block.ofBytes_eq_some.1 hb]; rfl) h

/-- The decoder on a frame with a right `LEN`. -/
theorem decode_cons {opc subop lo hi : Byte} {payload : ByteString} (h : payload.length = le16 lo hi) :
    decode (opc :: subop :: lo :: hi :: payload) = decodeCommand opc subop payload := by
  simp [decode, h]

theorem decode_cmdFrame {opc subop : Byte} {payload : ByteString} (h : payload.length ≤ maxPayload) :
    decode (cmdFrame opc subop payload) = decodeCommand opc subop payload :=
  decode_cons (le16_le16Bytes h).symm

theorem wholeFrame_cmdFrame {opc subop : Byte} {payload : ByteString} (h : payload.length ≤ maxPayload) :
    wholeFrame (cmdFrame opc subop payload) = true := by
  simp [wholeFrame, cmdFrame, le16Bytes, le16_le16Bytes h]

/-- A whole frame is its header fields and a payload of `LEN` bytes. -/
theorem wholeFrame_iff {bytes : ByteString} :
    wholeFrame bytes = true ↔ ∃ opc subop lo hi payload,
      bytes = opc :: subop :: lo :: hi :: payload ∧ payload.length = le16 lo hi := by
  constructor
  · unfold wholeFrame
    split
    · rename_i o s lo hi p
      intro h
      exact ⟨o, s, lo, hi, p, rfl, by simpa using h⟩
    · simp
  · rintro ⟨o, s, lo, hi, p, rfl, h⟩
    simp [wholeFrame, h]

/-- A whole frame is the frame the encoder's parts make from its fields. -/
theorem cmdFrame_of_fields {opc subop lo hi : Byte} {payload : ByteString}
    (h : payload.length = le16 lo hi) :
    cmdFrame opc subop payload = opc :: subop :: lo :: hi :: payload := by
  simp [cmdFrame, h, le16Bytes_le16]

theorem decode_not_whole {bytes : ByteString} (h : wholeFrame bytes = false) :
    decode bytes = .error .notWholeFrame := by
  unfold wholeFrame at h
  unfold decode
  split at h
  · simp_all
  · rfl

theorem decodeBlock_ok {c : Block → Instr} {p : ByteString} {i : Instr} (h : decodeBlock c p = .ok i) :
    ∃ b, i = c b ∧ p = b.bytes := by
  unfold decodeBlock at h
  split at h
  · rename_i b hb
    exact ⟨b, by simpa using h.symm, Block.ofBytes_eq_some.1 hb⟩
  · simp at h

theorem decodeBlock_error {c : Block → Instr} {p : ByteString} {e : DecodeError}
    (h : decodeBlock c p = .error e) : e = .blockLen ∧ p.length ≠ 8 := by
  unfold decodeBlock at h
  split at h
  · simp at h
  · rename_i hb
    exact ⟨by simpa using h.symm, Block.ofBytes_eq_none.1 hb⟩

/-- Which header and payload each decoded command came from (30_encoding.md R84). -/
theorem decodeCommand_ok {opc subop : Byte} {p : ByteString} {i : Instr}
    (h : decodeCommand opc subop p = .ok i) :
    (opc = opcSetKey ∧ subop = 0x00#8 ∧ i = .setKey p)
      ∨ (opc = opcEncrypt ∧ subop = 0x00#8 ∧ ∃ b, i = .encryptBlock b ∧ p = b.bytes)
      ∨ (opc = opcDecrypt ∧ subop = 0x00#8 ∧ ∃ b, i = .decryptBlock b ∧ p = b.bytes)
      ∨ (opc = opcConfigure ∧ subop = subopSelect ∧ i = .selectSbox p)
      ∨ (opc = opcConfigure ∧ subop ≠ subopSelect ∧ i = .configUnsupported subop p) := by
  unfold decodeCommand at h
  split at h
  · split at h
    · simp_all
    · simp_all
  · split at h
    · split at h <;> simp_all
    · split at h
      · split at h
        · have := decodeBlock_ok h
          simp_all
        · simp at h
      · split at h
        · split at h
          · have := decodeBlock_ok h
            simp_all
          · simp at h
        · simp at h

/-- The decoder gives only well-formed commands (30_encoding.md R94). -/
theorem decode_ok_wf {bytes : ByteString} {i : Instr} (h : decode bytes = .ok i) : i.wf = true := by
  cases hw : wholeFrame bytes with
  | false => simp [decode_not_whole hw] at h
  | true =>
    obtain ⟨opc, subop, lo, hi, p, rfl, hl⟩ := wholeFrame_iff.1 hw
    have hp := le16_le lo hi
    rw [decode_cons hl] at h
    rcases decodeCommand_ok h with ⟨rfl, rfl, rfl⟩ | ⟨rfl, rfl, b, rfl, rfl⟩ | ⟨rfl, rfl, b, rfl, rfl⟩
      | ⟨rfl, rfl, rfl⟩ | ⟨rfl, hs, rfl⟩
    all_goals simp_all [Instr.wf]

/-- A whole frame is never rejected as no frame. -/
theorem decodeCommand_ne_notWhole {opc subop : Byte} {p : ByteString} {e : DecodeError}
    (h : decodeCommand opc subop p = .error e) : e ≠ .notWholeFrame := by
  unfold decodeCommand at h
  split at h
  · split at h <;> simp at h
  · split at h
    · split at h <;> simp_all
      rintro rfl
      simp at h
    · split at h
      · split at h
        · simp [(decodeBlock_error h).1]
        · rintro rfl
          simp at h
      · split at h
        · split at h
          · simp [(decodeBlock_error h).1]
          · rintro rfl
            simp at h
        · rintro rfl
          simp at h

end Sys2Proof
end

