-- ==== Sys2Proof/Laws/Ops.lean ====
section
/-! SUPPORT. One lemma per shared operation: what a ROM read, the registry search, the default table
and the active table are, so that no later proof unfolds them. -/

namespace Sys2Proof.Machine

/-- A ROM read is the word at its index. -/
theorem romRead_eq (srom : List Word) (t : Nat) (h : (t + 1) * tableWords ≤ srom.length) (i : Fin 4)
    (j : Byte) : srom[t * 1024 + i.val * 256 + j.toNat]? = some (romRead srom t h i j) := by
  unfold romRead
  exact List.getElem?_eq_getElem _

/-- When there is an active table, and which. -/
theorem activeTable_eq_some {s : State} {T : Fin 4 → Byte → Word} :
    s.activeTable = some T ↔ ∃ h : (s.tsel + 1) * tableWords ≤ s.srom.length,
      s.tselValid = true ∧ T = romRead s.srom s.tsel h := by
  unfold State.activeTable
  constructor
  · intro h
    split at h
    · rename_i h'
      exact ⟨h'.2, h'.1, by simpa using h.symm⟩
    · simp at h
  · rintro ⟨h, hv, rfl⟩
    simp [hv, h]

/-- The active table depends on `TSEL`, `TSEL_VALID` and `SROM` only. -/
theorem activeTable_congr {s t : State} (h1 : t.tsel = s.tsel) (h2 : t.tselValid = s.tselValid)
    (h3 : t.srom = s.srom) : t.activeTable = s.activeTable := by
  cases s
  cases t
  subst h1 h2 h3
  rfl

@[simp] theorem registrySize_rromImage (set : SboxSet) : registrySize (rromImage set) = set.length := by
  induction set with
  | nil => rfl
  | cons r set ih => simpa [rromImage, registrySize] using ih

/-- The search from index `t`, on a registry image: the first record with the OID. -/
theorem lookupFrom_rromImage (oid : ByteString) (set : SboxSet) (t : Nat) :
    lookupFrom oid t (rromImage set) =
      (set.findIdx? (fun r => r.oid == oid)).map (fun n => n + t) := by
  induction set generalizing t with
  | nil => rfl
  | cons r set ih =>
    have e : lookupFrom oid t (rromImage (r :: set)) =
        if r.oid = oid then some t else lookupFrom oid (t + 1) (rromImage set) := rfl
    rw [e, List.findIdx?_cons]
    by_cases h : r.oid = oid
    · simp [h]
    · simp only [h, if_false, ih, beq_iff_eq, Option.map_map]
      congr 1
      funext n
      simp
      omega

theorem lookup_rromImage (oid : ByteString) (set : SboxSet) :
    lookup (rromImage set) oid = set.findIdx? (fun r => r.oid == oid) := by
  simp [lookup, lookupFrom_rromImage]

/-- A search finds only indices of tables (10_state.md R27). -/
theorem lookupFrom_lt {oid : ByteString} {l : List RegistryEntry} {t n : Nat}
    (h : lookupFrom oid t l = some n) : n < t + registrySize l := by
  induction l generalizing t with
  | nil => simp [lookupFrom] at h
  | cons e l ih =>
    cases e with
    | sentinel => simp [lookupFrom] at h
    | record name o =>
      simp only [lookupFrom] at h
      simp only [registrySize]
      split at h
      · simp at h
        omega
      · have := ih h
        omega

theorem lookup_lt {rrom : List RegistryEntry} {oid : ByteString} {n : Nat}
    (h : lookup rrom oid = some n) : n < registrySize rrom := by
  simpa using lookupFrom_lt h

/-- `DEFAULT_TABLE` is the first record named "test" of a set (00_scope.md R8). -/
theorem defaultTable_rromImage (set : SboxSet) :
    defaultTable (rromImage set) = set.findIdx (fun r => r.name == Config.testName) := by
  induction set with
  | nil => rfl
  | cons r set ih =>
    have e : defaultTable (rromImage (r :: set)) =
        if r.name = Config.testName then 0 else defaultTable (rromImage set) + 1 := rfl
    rw [e, List.findIdx_cons]
    by_cases h : r.name = Config.testName
    · simp [h]
    · rw [if_neg h, ih, beq_false_of_ne h]
      rfl

/-- A well-formed set has its default table. -/
theorem defaultTable_lt {set : SboxSet} (h : set.wf = true) :
    defaultTable (rromImage set) < set.length := by
  rw [defaultTable_rromImage, List.findIdx_lt_length]
  simp only [SboxSet.wf, Bool.and_eq_true, beq_iff_eq] at h
  have hp : 0 < set.countP (fun r => r.name == Config.testName) := by omega
  simpa using List.countP_pos_iff.1 hp

/-- `Sched` is the word of `KROM` at `DIR*32 + s` (20_memory.md R55). -/
theorem sched_eq (dir : BitVec 1) (s : Fin 32) : krom[dir.toNat * 32 + s.val]? = some (sched dir s) := by
  unfold sched
  exact List.getElem?_eq_getElem _

/-- The decryption half of the schedule is the encryption half reversed (43_feistel_engine.md R154). -/
theorem sched_reversed (s : Fin 32) : sched 1 s = sched 0 s.rev := by
  revert s
  decide

/-- A response without payload (30_encoding.md R83). -/
theorem rspFrame_nil (st : Status) : rspFrame st [] = [st.code, 0x00#8, 0x00#8, 0x00#8] := rfl

/-- A response with a block (30_encoding.md R83): `RLEN` is 8. -/
theorem rspFrame_block (st : Status) (w0 w1 : Word) :
    rspFrame st (le32Bytes w0 ++ le32Bytes w1) =
      [st.code, 0x00#8, 0x08#8, 0x00#8] ++ (le32Bytes w0 ++ le32Bytes w1) := by
  simp [rspFrame, le16Bytes, le32Bytes]

/-- Only `OK` has the code zero (60_exceptions.md R181). -/
theorem code_eq_zero {st : Status} : st.code = 0x00#8 ↔ st = .ok := by
  cases st <;> decide

theorem ofCode_code (st : Status) : Status.ofCode st.code = some st := by
  cases st <;> decide

/-- What rejecting a byte string answers. -/
theorem rejectFrame_of_whole {e : DecodeError} (h : e ≠ .notWholeFrame) (s : State) :
    rejectFrame e s = .next (s.raise .illegalCommand) := by
  cases e <;> first | rfl | exact absurd rfl h

end Sys2Proof.Machine
end

