-- ==== Sys2Proof/Laws/State.lean ====
section
/-! SUPPORT. One lemma per field per update of the state: what each shared operation writes, and that it
writes nothing else. Later proofs rewrite with these and unfold no record update. -/

namespace Sys2Proof.Machine

variable (s : State)

/-! ### `accept` -/

@[simp] theorem State.accept_k (payload : ByteString) : (s.accept payload).k = s.k := rfl
@[simp] theorem State.accept_keyValid (payload : ByteString) :
    (s.accept payload).keyValid = s.keyValid := rfl
@[simp] theorem State.accept_tsel (payload : ByteString) : (s.accept payload).tsel = s.tsel := rfl
@[simp] theorem State.accept_tselValid (payload : ByteString) :
    (s.accept payload).tselValid = s.tselValid := rfl
@[simp] theorem State.accept_n1 (payload : ByteString) : (s.accept payload).n1 = s.n1 := rfl
@[simp] theorem State.accept_n2 (payload : ByteString) : (s.accept payload).n2 = s.n2 := rfl
@[simp] theorem State.accept_rc (payload : ByteString) : (s.accept payload).rc = s.rc := rfl
@[simp] theorem State.accept_dir (payload : ByteString) : (s.accept payload).dir = s.dir := rfl
@[simp] theorem State.accept_pbuf (payload : ByteString) : (s.accept payload).pbuf = payload := rfl
@[simp] theorem State.accept_obuf (payload : ByteString) : (s.accept payload).obuf = s.obuf := rfl
@[simp] theorem State.accept_srom (payload : ByteString) : (s.accept payload).srom = s.srom := rfl
@[simp] theorem State.accept_rrom (payload : ByteString) : (s.accept payload).rrom = s.rrom := rfl
@[simp] theorem State.accept_inbox (payload : ByteString) :
    (s.accept payload).inbox = s.inbox := rfl
@[simp] theorem State.accept_outbox (payload : ByteString) :
    (s.accept payload).outbox = s.outbox := rfl

/-! ### `keyed` -/

@[simp] theorem State.keyed_k (ks : Subkeys) : (s.keyed ks).k = ks := rfl
@[simp] theorem State.keyed_keyValid (ks : Subkeys) : (s.keyed ks).keyValid = true := rfl
@[simp] theorem State.keyed_tsel (ks : Subkeys) : (s.keyed ks).tsel = s.tsel := rfl
@[simp] theorem State.keyed_tselValid (ks : Subkeys) : (s.keyed ks).tselValid = s.tselValid := rfl
@[simp] theorem State.keyed_n1 (ks : Subkeys) : (s.keyed ks).n1 = s.n1 := rfl
@[simp] theorem State.keyed_n2 (ks : Subkeys) : (s.keyed ks).n2 = s.n2 := rfl
@[simp] theorem State.keyed_rc (ks : Subkeys) : (s.keyed ks).rc = s.rc := rfl
@[simp] theorem State.keyed_dir (ks : Subkeys) : (s.keyed ks).dir = s.dir := rfl
@[simp] theorem State.keyed_pbuf (ks : Subkeys) : (s.keyed ks).pbuf = s.pbuf := rfl
@[simp] theorem State.keyed_obuf (ks : Subkeys) : (s.keyed ks).obuf = s.obuf := rfl
@[simp] theorem State.keyed_srom (ks : Subkeys) : (s.keyed ks).srom = s.srom := rfl
@[simp] theorem State.keyed_rrom (ks : Subkeys) : (s.keyed ks).rrom = s.rrom := rfl
@[simp] theorem State.keyed_inbox (ks : Subkeys) : (s.keyed ks).inbox = s.inbox := rfl
@[simp] theorem State.keyed_outbox (ks : Subkeys) : (s.keyed ks).outbox = s.outbox := rfl

/-! ### `select` -/

@[simp] theorem State.select_k (t : Nat) : (s.select t).k = s.k := rfl
@[simp] theorem State.select_keyValid (t : Nat) : (s.select t).keyValid = s.keyValid := rfl
@[simp] theorem State.select_tsel (t : Nat) : (s.select t).tsel = t := rfl
@[simp] theorem State.select_tselValid (t : Nat) : (s.select t).tselValid = true := rfl
@[simp] theorem State.select_n1 (t : Nat) : (s.select t).n1 = s.n1 := rfl
@[simp] theorem State.select_n2 (t : Nat) : (s.select t).n2 = s.n2 := rfl
@[simp] theorem State.select_rc (t : Nat) : (s.select t).rc = s.rc := rfl
@[simp] theorem State.select_dir (t : Nat) : (s.select t).dir = s.dir := rfl
@[simp] theorem State.select_pbuf (t : Nat) : (s.select t).pbuf = s.pbuf := rfl
@[simp] theorem State.select_obuf (t : Nat) : (s.select t).obuf = s.obuf := rfl
@[simp] theorem State.select_srom (t : Nat) : (s.select t).srom = s.srom := rfl
@[simp] theorem State.select_rrom (t : Nat) : (s.select t).rrom = s.rrom := rfl
@[simp] theorem State.select_inbox (t : Nat) : (s.select t).inbox = s.inbox := rfl
@[simp] theorem State.select_outbox (t : Nat) : (s.select t).outbox = s.outbox := rfl

/-! ### `selectIfNone` -/

@[simp] theorem State.selectIfNone_k (t : Nat) :
    (s.selectIfNone t).k = s.k := by cases h : s.tselValid <;> simp [State.selectIfNone, State.select, h]
@[simp] theorem State.selectIfNone_keyValid (t : Nat) :
    (s.selectIfNone t).keyValid = s.keyValid := by cases h : s.tselValid <;> simp [State.selectIfNone, State.select, h]
@[simp] theorem State.selectIfNone_tsel (t : Nat) :
    (s.selectIfNone t).tsel = if s.tselValid = true then s.tsel else t := by cases h : s.tselValid <;> simp [State.selectIfNone, State.select, h]
@[simp] theorem State.selectIfNone_tselValid (t : Nat) :
    (s.selectIfNone t).tselValid = true := by cases h : s.tselValid <;> simp [State.selectIfNone, State.select, h]
@[simp] theorem State.selectIfNone_n1 (t : Nat) :
    (s.selectIfNone t).n1 = s.n1 := by cases h : s.tselValid <;> simp [State.selectIfNone, State.select, h]
@[simp] theorem State.selectIfNone_n2 (t : Nat) :
    (s.selectIfNone t).n2 = s.n2 := by cases h : s.tselValid <;> simp [State.selectIfNone, State.select, h]
@[simp] theorem State.selectIfNone_rc (t : Nat) :
    (s.selectIfNone t).rc = s.rc := by cases h : s.tselValid <;> simp [State.selectIfNone, State.select, h]
@[simp] theorem State.selectIfNone_dir (t : Nat) :
    (s.selectIfNone t).dir = s.dir := by cases h : s.tselValid <;> simp [State.selectIfNone, State.select, h]
@[simp] theorem State.selectIfNone_pbuf (t : Nat) :
    (s.selectIfNone t).pbuf = s.pbuf := by cases h : s.tselValid <;> simp [State.selectIfNone, State.select, h]
@[simp] theorem State.selectIfNone_obuf (t : Nat) :
    (s.selectIfNone t).obuf = s.obuf := by cases h : s.tselValid <;> simp [State.selectIfNone, State.select, h]
@[simp] theorem State.selectIfNone_srom (t : Nat) :
    (s.selectIfNone t).srom = s.srom := by cases h : s.tselValid <;> simp [State.selectIfNone, State.select, h]
@[simp] theorem State.selectIfNone_rrom (t : Nat) :
    (s.selectIfNone t).rrom = s.rrom := by cases h : s.tselValid <;> simp [State.selectIfNone, State.select, h]
@[simp] theorem State.selectIfNone_inbox (t : Nat) :
    (s.selectIfNone t).inbox = s.inbox := by cases h : s.tselValid <;> simp [State.selectIfNone, State.select, h]
@[simp] theorem State.selectIfNone_outbox (t : Nat) :
    (s.selectIfNone t).outbox = s.outbox := by cases h : s.tselValid <;> simp [State.selectIfNone, State.select, h]

/-! ### `zeroise` -/

@[simp] theorem State.zeroise_k : (s.zeroise).k = s.k := rfl
@[simp] theorem State.zeroise_keyValid : (s.zeroise).keyValid = s.keyValid := rfl
@[simp] theorem State.zeroise_tsel : (s.zeroise).tsel = s.tsel := rfl
@[simp] theorem State.zeroise_tselValid : (s.zeroise).tselValid = s.tselValid := rfl
@[simp] theorem State.zeroise_n1 : (s.zeroise).n1 = 0 := rfl
@[simp] theorem State.zeroise_n2 : (s.zeroise).n2 = 0 := rfl
@[simp] theorem State.zeroise_rc : (s.zeroise).rc = 0 := rfl
@[simp] theorem State.zeroise_dir : (s.zeroise).dir = 0 := rfl
@[simp] theorem State.zeroise_pbuf : (s.zeroise).pbuf = s.pbuf := rfl
@[simp] theorem State.zeroise_obuf : (s.zeroise).obuf = s.obuf := rfl
@[simp] theorem State.zeroise_srom : (s.zeroise).srom = s.srom := rfl
@[simp] theorem State.zeroise_rrom : (s.zeroise).rrom = s.rrom := rfl
@[simp] theorem State.zeroise_inbox : (s.zeroise).inbox = s.inbox := rfl
@[simp] theorem State.zeroise_outbox : (s.zeroise).outbox = s.outbox := rfl

/-! ### `respond` -/

@[simp] theorem State.respond_k (st : Status) (payload : ByteString) :
    (s.respond st payload).k = s.k := rfl
@[simp] theorem State.respond_keyValid (st : Status) (payload : ByteString) :
    (s.respond st payload).keyValid = s.keyValid := rfl
@[simp] theorem State.respond_tsel (st : Status) (payload : ByteString) :
    (s.respond st payload).tsel = s.tsel := rfl
@[simp] theorem State.respond_tselValid (st : Status) (payload : ByteString) :
    (s.respond st payload).tselValid = s.tselValid := rfl
@[simp] theorem State.respond_n1 (st : Status) (payload : ByteString) :
    (s.respond st payload).n1 = s.n1 := rfl
@[simp] theorem State.respond_n2 (st : Status) (payload : ByteString) :
    (s.respond st payload).n2 = s.n2 := rfl
@[simp] theorem State.respond_rc (st : Status) (payload : ByteString) :
    (s.respond st payload).rc = s.rc := rfl
@[simp] theorem State.respond_dir (st : Status) (payload : ByteString) :
    (s.respond st payload).dir = s.dir := rfl
@[simp] theorem State.respond_pbuf (st : Status) (payload : ByteString) :
    (s.respond st payload).pbuf = [] := rfl
@[simp] theorem State.respond_obuf (st : Status) (payload : ByteString) :
    (s.respond st payload).obuf = [] := rfl
@[simp] theorem State.respond_srom (st : Status) (payload : ByteString) :
    (s.respond st payload).srom = s.srom := rfl
@[simp] theorem State.respond_rrom (st : Status) (payload : ByteString) :
    (s.respond st payload).rrom = s.rrom := rfl
@[simp] theorem State.respond_inbox (st : Status) (payload : ByteString) :
    (s.respond st payload).inbox = s.inbox := rfl
@[simp] theorem State.respond_outbox (st : Status) (payload : ByteString) :
    (s.respond st payload).outbox = s.outbox ++ [rspFrame st payload] := rfl

/-! ### `respondOk` -/

@[simp] theorem State.respondOk_k : (s.respondOk).k = s.k := rfl
@[simp] theorem State.respondOk_keyValid : (s.respondOk).keyValid = s.keyValid := rfl
@[simp] theorem State.respondOk_tsel : (s.respondOk).tsel = s.tsel := rfl
@[simp] theorem State.respondOk_tselValid : (s.respondOk).tselValid = s.tselValid := rfl
@[simp] theorem State.respondOk_n1 : (s.respondOk).n1 = s.n1 := rfl
@[simp] theorem State.respondOk_n2 : (s.respondOk).n2 = s.n2 := rfl
@[simp] theorem State.respondOk_rc : (s.respondOk).rc = s.rc := rfl
@[simp] theorem State.respondOk_dir : (s.respondOk).dir = s.dir := rfl
@[simp] theorem State.respondOk_pbuf : (s.respondOk).pbuf = [] := rfl
@[simp] theorem State.respondOk_obuf : (s.respondOk).obuf = [] := rfl
@[simp] theorem State.respondOk_srom : (s.respondOk).srom = s.srom := rfl
@[simp] theorem State.respondOk_rrom : (s.respondOk).rrom = s.rrom := rfl
@[simp] theorem State.respondOk_inbox : (s.respondOk).inbox = s.inbox := rfl
@[simp] theorem State.respondOk_outbox : (s.respondOk).outbox = s.outbox ++ [rspFrame .ok []] := rfl

/-! ### `raise` -/

@[simp] theorem State.raise_k (e : Status) : (s.raise e).k = s.k := rfl
@[simp] theorem State.raise_keyValid (e : Status) : (s.raise e).keyValid = s.keyValid := rfl
@[simp] theorem State.raise_tsel (e : Status) : (s.raise e).tsel = s.tsel := rfl
@[simp] theorem State.raise_tselValid (e : Status) : (s.raise e).tselValid = s.tselValid := rfl
@[simp] theorem State.raise_n1 (e : Status) : (s.raise e).n1 = 0 := rfl
@[simp] theorem State.raise_n2 (e : Status) : (s.raise e).n2 = 0 := rfl
@[simp] theorem State.raise_rc (e : Status) : (s.raise e).rc = 0 := rfl
@[simp] theorem State.raise_dir (e : Status) : (s.raise e).dir = 0 := rfl
@[simp] theorem State.raise_pbuf (e : Status) : (s.raise e).pbuf = [] := rfl
@[simp] theorem State.raise_obuf (e : Status) : (s.raise e).obuf = [] := rfl
@[simp] theorem State.raise_srom (e : Status) : (s.raise e).srom = s.srom := rfl
@[simp] theorem State.raise_rrom (e : Status) : (s.raise e).rrom = s.rrom := rfl
@[simp] theorem State.raise_inbox (e : Status) : (s.raise e).inbox = s.inbox := rfl
@[simp] theorem State.raise_outbox (e : Status) :
    (s.raise e).outbox = s.outbox ++ [rspFrame e []] := rfl

/-! ### `hardReset` -/

@[simp] theorem State.hardReset_k : (s.hardReset).k = .zero := rfl
@[simp] theorem State.hardReset_keyValid : (s.hardReset).keyValid = false := rfl
@[simp] theorem State.hardReset_tsel : (s.hardReset).tsel = 0 := rfl
@[simp] theorem State.hardReset_tselValid : (s.hardReset).tselValid = false := rfl
@[simp] theorem State.hardReset_n1 : (s.hardReset).n1 = 0 := rfl
@[simp] theorem State.hardReset_n2 : (s.hardReset).n2 = 0 := rfl
@[simp] theorem State.hardReset_rc : (s.hardReset).rc = 0 := rfl
@[simp] theorem State.hardReset_dir : (s.hardReset).dir = 0 := rfl
@[simp] theorem State.hardReset_pbuf : (s.hardReset).pbuf = [] := rfl
@[simp] theorem State.hardReset_obuf : (s.hardReset).obuf = [] := rfl
@[simp] theorem State.hardReset_srom : (s.hardReset).srom = s.srom := rfl
@[simp] theorem State.hardReset_rrom : (s.hardReset).rrom = s.rrom := rfl
@[simp] theorem State.hardReset_inbox : (s.hardReset).inbox = s.inbox := rfl
@[simp] theorem State.hardReset_outbox : (s.hardReset).outbox = s.outbox := rfl

/-! ### `direct` -/

@[simp] theorem State.direct_k (d : BitVec 1) : (s.direct d).k = s.k := rfl
@[simp] theorem State.direct_keyValid (d : BitVec 1) : (s.direct d).keyValid = s.keyValid := rfl
@[simp] theorem State.direct_tsel (d : BitVec 1) : (s.direct d).tsel = s.tsel := rfl
@[simp] theorem State.direct_tselValid (d : BitVec 1) : (s.direct d).tselValid = s.tselValid := rfl
@[simp] theorem State.direct_n1 (d : BitVec 1) : (s.direct d).n1 = s.n1 := rfl
@[simp] theorem State.direct_n2 (d : BitVec 1) : (s.direct d).n2 = s.n2 := rfl
@[simp] theorem State.direct_rc (d : BitVec 1) : (s.direct d).rc = s.rc := rfl
@[simp] theorem State.direct_dir (d : BitVec 1) : (s.direct d).dir = d := rfl
@[simp] theorem State.direct_pbuf (d : BitVec 1) : (s.direct d).pbuf = s.pbuf := rfl
@[simp] theorem State.direct_obuf (d : BitVec 1) : (s.direct d).obuf = s.obuf := rfl
@[simp] theorem State.direct_srom (d : BitVec 1) : (s.direct d).srom = s.srom := rfl
@[simp] theorem State.direct_rrom (d : BitVec 1) : (s.direct d).rrom = s.rrom := rfl
@[simp] theorem State.direct_inbox (d : BitVec 1) : (s.direct d).inbox = s.inbox := rfl
@[simp] theorem State.direct_outbox (d : BitVec 1) : (s.direct d).outbox = s.outbox := rfl

/-! ### `load` -/

@[simp] theorem State.load_k (h : s.pbuf.length = Config.blockBytes) : (s.load h).k = s.k := rfl
@[simp] theorem State.load_keyValid (h : s.pbuf.length = Config.blockBytes) :
    (s.load h).keyValid = s.keyValid := rfl
@[simp] theorem State.load_tsel (h : s.pbuf.length = Config.blockBytes) :
    (s.load h).tsel = s.tsel := rfl
@[simp] theorem State.load_tselValid (h : s.pbuf.length = Config.blockBytes) :
    (s.load h).tselValid = s.tselValid := rfl
@[simp] theorem State.load_n1 (h : s.pbuf.length = Config.blockBytes) :
    (s.load h).n1 = wordAt s.pbuf 0 (by simp [h, Config.blockBytes]) := rfl
@[simp] theorem State.load_n2 (h : s.pbuf.length = Config.blockBytes) :
    (s.load h).n2 = wordAt s.pbuf 4 (by simp [h, Config.blockBytes]) := rfl
@[simp] theorem State.load_rc (h : s.pbuf.length = Config.blockBytes) : (s.load h).rc = 0 := rfl
@[simp] theorem State.load_dir (h : s.pbuf.length = Config.blockBytes) :
    (s.load h).dir = s.dir := rfl
@[simp] theorem State.load_pbuf (h : s.pbuf.length = Config.blockBytes) :
    (s.load h).pbuf = s.pbuf := rfl
@[simp] theorem State.load_obuf (h : s.pbuf.length = Config.blockBytes) :
    (s.load h).obuf = s.obuf := rfl
@[simp] theorem State.load_srom (h : s.pbuf.length = Config.blockBytes) :
    (s.load h).srom = s.srom := rfl
@[simp] theorem State.load_rrom (h : s.pbuf.length = Config.blockBytes) :
    (s.load h).rrom = s.rrom := rfl
@[simp] theorem State.load_inbox (h : s.pbuf.length = Config.blockBytes) :
    (s.load h).inbox = s.inbox := rfl
@[simp] theorem State.load_outbox (h : s.pbuf.length = Config.blockBytes) :
    (s.load h).outbox = s.outbox := rfl

/-! ### `store` -/

@[simp] theorem State.store_k : (s.store).k = s.k := rfl
@[simp] theorem State.store_keyValid : (s.store).keyValid = s.keyValid := rfl
@[simp] theorem State.store_tsel : (s.store).tsel = s.tsel := rfl
@[simp] theorem State.store_tselValid : (s.store).tselValid = s.tselValid := rfl
@[simp] theorem State.store_n1 : (s.store).n1 = s.n1 := rfl
@[simp] theorem State.store_n2 : (s.store).n2 = s.n2 := rfl
@[simp] theorem State.store_rc : (s.store).rc = s.rc := rfl
@[simp] theorem State.store_dir : (s.store).dir = s.dir := rfl
@[simp] theorem State.store_pbuf : (s.store).pbuf = s.pbuf := rfl
@[simp] theorem State.store_obuf : (s.store).obuf = le32Bytes s.n2 ++ le32Bytes s.n1 := rfl
@[simp] theorem State.store_srom : (s.store).srom = s.srom := rfl
@[simp] theorem State.store_rrom : (s.store).rrom = s.rrom := rfl
@[simp] theorem State.store_inbox : (s.store).inbox = s.inbox := rfl
@[simp] theorem State.store_outbox : (s.store).outbox = s.outbox := rfl

/-! ### `finishBlock` -/

@[simp] theorem State.finishBlock_k : (s.finishBlock).k = s.k := rfl
@[simp] theorem State.finishBlock_keyValid : (s.finishBlock).keyValid = s.keyValid := rfl
@[simp] theorem State.finishBlock_tsel : (s.finishBlock).tsel = s.tsel := rfl
@[simp] theorem State.finishBlock_tselValid : (s.finishBlock).tselValid = s.tselValid := rfl
@[simp] theorem State.finishBlock_n1 : (s.finishBlock).n1 = 0 := rfl
@[simp] theorem State.finishBlock_n2 : (s.finishBlock).n2 = 0 := rfl
@[simp] theorem State.finishBlock_rc : (s.finishBlock).rc = 0 := rfl
@[simp] theorem State.finishBlock_dir : (s.finishBlock).dir = 0 := rfl
@[simp] theorem State.finishBlock_pbuf : (s.finishBlock).pbuf = [] := rfl
@[simp] theorem State.finishBlock_obuf : (s.finishBlock).obuf = [] := rfl
@[simp] theorem State.finishBlock_srom : (s.finishBlock).srom = s.srom := rfl
@[simp] theorem State.finishBlock_rrom : (s.finishBlock).rrom = s.rrom := rfl
@[simp] theorem State.finishBlock_inbox : (s.finishBlock).inbox = s.inbox := rfl
@[simp] theorem State.finishBlock_outbox :
    (s.finishBlock).outbox = s.outbox ++ [rspFrame .ok s.obuf] := rfl

end Sys2Proof.Machine
end

