-- ==== Sys2Proof/Laws/Rounds.lean ====
section
/-! SUPPORT. The sequencer: what one round application can do, and what a run of them does to `RC`, to
the working registers and to everything else. -/

namespace Sys2Proof.Machine

variable (T : Fin 4 → Byte → Word)

/-- Everything a round application can do (43_feistel_engine.md R153): three outcomes, by `RC`. -/
theorem roundApplication_cases (s : State) :
    (32 ≤ s.rc.toNat ∧ s.roundApplication T = s)
      ∨ (∃ h : s.rc.toNat < 32, s.rc.toNat % 2 = 0 ∧ s.roundApplication T =
          { s with n2 := s.n2 ^^^ roundFn T s.n1 (s.k.get (sched s.dir ⟨s.rc.toNat, h⟩)), rc := s.rc + 1 })
      ∨ (∃ h : s.rc.toNat < 32, s.rc.toNat % 2 = 1 ∧ s.roundApplication T =
          { s with n1 := s.n1 ^^^ roundFn T s.n2 (s.k.get (sched s.dir ⟨s.rc.toNat, h⟩)), rc := s.rc + 1 }) := by
  by_cases h : s.rc.toNat < 32
  · rcases Nat.mod_two_eq_zero_or_one s.rc.toNat with h2 | h2
    · exact .inr (.inl ⟨h, h2, by simp [State.roundApplication, h, h2]⟩)
    · exact .inr (.inr ⟨h, h2, by simp [State.roundApplication, h, h2]⟩)
  · exact .inl ⟨by omega, by simp [State.roundApplication, h]⟩

/-- What a round application leaves: only `N1`, `N2` and `RC` can change. -/
theorem roundApplication_frame (s : State) :
    s.roundApplication T =
      { s with n1 := (s.roundApplication T).n1, n2 := (s.roundApplication T).n2,
               rc := (s.roundApplication T).rc } := by
  rcases roundApplication_cases T s with ⟨_, e⟩ | ⟨_, _, e⟩ | ⟨_, _, e⟩ <;> rw [e]

/-- What any number of round applications leaves. -/
theorem roundApplications_frame (n : Nat) (s : State) :
    s.roundApplications T n =
      { s with n1 := (s.roundApplications T n).n1, n2 := (s.roundApplications T n).n2,
               rc := (s.roundApplications T n).rc } := by
  induction n generalizing s with
  | zero => rfl
  | succ n ih =>
    simp only [State.roundApplications]
    rw [ih, roundApplication_frame]

theorem roundApplications_add (m n : Nat) (s : State) :
    s.roundApplications T (m + n) = (s.roundApplications T m).roundApplications T n := by
  induction m generalizing s with
  | zero => simp [State.roundApplications]
  | succ m ih =>
    rw [Nat.succ_add]
    exact ih _

/-- `RC` counts the applications (10_state.md R22). -/
theorem roundApplication_rc {s : State} (h : s.rc.toNat < 32) :
    (s.roundApplication T).rc.toNat = s.rc.toNat + 1 := by
  rcases roundApplication_cases T s with ⟨h', _⟩ | ⟨_, _, e⟩ | ⟨_, _, e⟩
  · omega
  all_goals
    rw [e, BitVec.toNat_add]
    simp
    omega

end Sys2Proof.Machine
end

