-- ==== Sys2Proof/Laws/Exec.lean ====
section
/-! SUPPORT. The meanings and the step, each said once: what a command answers in each of its cases,
and the inversion "if it answers next t, then one of these". -/

namespace Sys2Proof.Machine

/-- An error forgets the payload it was raised on. -/
@[simp] theorem accept_raise (s : State) (payload : ByteString) (e : Status) :
    (s.accept payload).raise e = s.raise e := rfl

/-! ### Each command in each case -/

theorem execSetKey_of_length {key : ByteString} (h : key.length = Config.keyBytes) (s : State) :
    execSetKey key s = .next
      ((((s.accept key).keyed (subkeysOf key h)).selectIfNone (defaultTable s.rrom)).respondOk) := by
  unfold execSetKey
  exact dif_pos h

/-- The same, as the whole next state. -/
theorem keyed_state (s : State) (key : ByteString) (ks : Subkeys) (n : Nat) :
    (((s.accept key).keyed ks).selectIfNone n).respondOk =
      { s with k := ks, keyValid := true, tsel := if s.tselValid then s.tsel else n, tselValid := true,
               pbuf := [], obuf := [], outbox := s.outbox ++ [rspFrame .ok []] } := by
  cases h : s.tselValid <;>
    simp [State.selectIfNone, State.select, State.keyed, State.accept, State.respondOk, State.respond, h]

theorem execSetKey_of_length_ne {key : ByteString} (h : key.length ≠ Config.keyBytes) (s : State) :
    execSetKey key s = .next (s.raise .invalidKeyLength) := by
  unfold execSetKey
  exact dif_neg h

theorem blockCommand_of_table {s : State} {T : Fin 4 → Byte → Word} (hk : s.keyValid = true)
    (hT : s.activeTable = some T) (dir : BitVec 1) (b : Block) :
    blockCommand dir b s = .next (s.processBlock T dir b) := by
  simp [blockCommand, hk, hT]

theorem blockCommand_of_no_table {s : State} (hk : s.keyValid = true) (hT : s.activeTable = none)
    (dir : BitVec 1) (b : Block) : blockCommand dir b s = .fault .noActiveTable := by
  simp [blockCommand, hk, hT]

theorem blockCommand_of_no_key {s : State} (hk : s.keyValid = false) (dir : BitVec 1) (b : Block) :
    blockCommand dir b s = .next (s.raise .noKey) := by
  simp [blockCommand, hk]

theorem execSelectSbox_of_found {s : State} {oid : ByteString} {n : Nat}
    (h : lookup s.rrom oid = some n) :
    execSelectSbox oid s = .next (((s.accept oid).select n).respondOk) := by
  simp [execSelectSbox, configure, State.selectSbox, h]

theorem execSelectSbox_of_not_found {s : State} {oid : ByteString} (h : lookup s.rrom oid = none) :
    execSelectSbox oid s = .next (s.raise .sboxNotFound) := by
  simp [execSelectSbox, configure, State.selectSbox, h]

theorem execConfigUnsupported_of_ne {op : Byte} (h : op ≠ subopSelect) (payload : ByteString)
    (s : State) : execConfigUnsupported op payload s = .next (s.raise .unsupportedOperation) := by
  simp [execConfigUnsupported, configure, h]

/-! ### What a processed block leaves -/

/-- Everything a processed block changes: the transient registers are zero, the buffers empty, and one
response is delivered. -/
theorem processBlock_frame (T : Fin 4 → Byte → Word) (dir : BitVec 1) (b : Block) (s : State) :
    ∃ n1 n2, s.processBlock T dir b =
      { s with n1 := 0, n2 := 0, rc := 0, dir := 0, pbuf := [], obuf := [],
               outbox := s.outbox ++ [rspFrame .ok (le32Bytes n2 ++ le32Bytes n1)] } := by
  unfold State.processBlock
  extract_lets loaded
  obtain ⟨n1, n2, rc, e⟩ : ∃ n1 n2 rc,
      loaded.roundApplications T Config.numRounds = { loaded with n1 := n1, n2 := n2, rc := rc } :=
    ⟨_, _, _, roundApplications_frame T _ loaded⟩
  refine ⟨n1, n2, ?_⟩
  rw [e]
  rfl

/-! ### Inversion -/

/-- The ways a command can go on. `t` is the next state. -/
inductive Ends (i : Instr) (s t : State) : Prop where
  /-- An error: nothing but the response, and the transient registers zeroised. -/
  | error (e : Status) (he : e ≠ .ok) (hp : t = s.raise e)
  /-- A key was accepted. -/
  | keyed (key : ByteString) (h : key.length = Config.keyBytes) (hi : i = .setKey key)
      (hp : t = (((s.accept key).keyed (subkeysOf key h)).selectIfNone (defaultTable s.rrom)).respondOk)
  /-- A table was selected. -/
  | selected (oid : ByteString) (n : Nat) (hn : lookup s.rrom oid = some n) (hi : i = .selectSbox oid)
      (hp : t = ((s.accept oid).select n).respondOk)
  /-- A block was processed. -/
  | block (T : Fin 4 → Byte → Word) (dir : BitVec 1) (b : Block)
      (hi : i = .encryptBlock b ∧ dir = 0 ∨ i = .decryptBlock b ∧ dir = 1)
      (hk : s.keyValid = true) (hT : s.activeTable = some T) (hp : t = s.processBlock T dir b)

/-- The ways a block command can go on. -/
theorem blockCommand_next {dir : BitVec 1} {b : Block} {s t : State}
    (h : blockCommand dir b s = .next t) :
    (s.keyValid = false ∧ t = s.raise .noKey)
      ∨ (s.keyValid = true ∧ ∃ T, s.activeTable = some T ∧ t = s.processBlock T dir b) := by
  cases hk : s.keyValid with
  | false =>
    rw [blockCommand_of_no_key hk] at h
    exact .inl ⟨rfl, by simpa using h.symm⟩
  | true =>
    cases hT : s.activeTable with
    | none => simp [blockCommand_of_no_table hk hT] at h
    | some T =>
      rw [blockCommand_of_table hk hT] at h
      exact .inr ⟨rfl, T, rfl, by simpa using h.symm⟩

/-- Every command that goes on ends in one of the ways above. An ill-formed `configUnsupported` with
`op = 0x01` acts as the selection it spells (44_configure.md R170). -/
theorem exec_next {i : Instr} {s t : State} (hw : i.wf = true) (h : exec i s = .next t) : Ends i s t := by
  cases i with
  | setKey key =>
    change execSetKey key s = _ at h
    by_cases hl : key.length = Config.keyBytes
    · rw [execSetKey_of_length hl] at h
      exact .keyed key hl rfl (by simpa using h.symm)
    · rw [execSetKey_of_length_ne hl] at h
      exact .error .invalidKeyLength (by decide) (by simpa using h.symm)
  | encryptBlock b =>
    rcases blockCommand_next (dir := 0) h with ⟨_, rfl⟩ | ⟨hk, T, hT, rfl⟩
    · exact .error _ (by simp) rfl
    · exact .block T 0 b (.inl ⟨rfl, rfl⟩) hk hT rfl
  | decryptBlock b =>
    rcases blockCommand_next (dir := 1) h with ⟨_, rfl⟩ | ⟨hk, T, hT, rfl⟩
    · exact .error _ (by simp) rfl
    · exact .block T 1 b (.inr ⟨rfl, rfl⟩) hk hT rfl
  | selectSbox oid =>
    change execSelectSbox oid s = _ at h
    cases hn : lookup s.rrom oid with
    | none =>
      rw [execSelectSbox_of_not_found hn] at h
      exact .error .sboxNotFound (by decide) (by simpa using h.symm)
    | some n =>
      rw [execSelectSbox_of_found hn] at h
      exact .selected oid n hn rfl (by simpa using h.symm)
  | configUnsupported op payload =>
    change execConfigUnsupported op payload s = _ at h
    have ho : op ≠ subopSelect := by
      simp only [Instr.wf, Bool.and_eq_true, decide_eq_true_eq] at hw
      exact hw.1
    rw [execConfigUnsupported_of_ne ho] at h
    exact .error .unsupportedOperation (by decide) (by simpa using h.symm)

/-- A frame that goes on: a command of it, or an illegal frame (30_encoding.md R88). -/
theorem runFrame_next {bytes : ByteString} {s t : State} (h : runFrame bytes s = .next t) :
    (∃ i, decode bytes = .ok i ∧ exec i s = .next t)
      ∨ (∃ e, decode bytes = .error e ∧ e ≠ .notWholeFrame ∧ t = s.raise .illegalCommand) := by
  unfold runFrame at h
  split at h
  · rename_i i hi
    exact .inl ⟨i, hi, h⟩
  · rename_i e he
    by_cases hn : e = .notWholeFrame
    · simp [hn, rejectFrame] at h
    · rw [rejectFrame_of_whole hn] at h
      exact .inr ⟨e, he, hn, by simpa using h.symm⟩

/-- The ways the machine makes a step (60_exceptions.md R194, R191; 70_reset_and_hazards.md R210, R211). -/
theorem step_next {s t : State} (h : step s = .next t) :
    (s.inbox = [] ∧ t = s)
      ∨ (∃ bytes rest, s.inbox = .frame bytes :: rest ∧ runFrame bytes { s with inbox := rest } = .next t)
      ∨ (∃ rest, s.inbox = .reset :: rest ∧ t = State.hardReset { s with inbox := rest })
      ∨ (∃ bytes rest, s.inbox = .frameThenReset bytes :: rest ∧ wholeFrame bytes = true ∧
          t = State.hardReset { s with inbox := rest }) := by
  unfold step at h
  split at h
  · rename_i e
    exact .inl ⟨e, by simpa using h.symm⟩
  · rename_i bytes rest e
    exact .inr (.inl ⟨bytes, rest, e, h⟩)
  · rename_i rest e
    exact .inr (.inr (.inl ⟨rest, e, by simpa using h.symm⟩))
  · rename_i bytes rest e
    unfold abandonFrame at h
    split at h
    · rename_i hw
      exact .inr (.inr (.inr ⟨bytes, rest, e, hw, by simpa using h.symm⟩))
    · simp at h

end Sys2Proof.Machine
end

