-- ==== Sys2Proof/Laws/PerInstr.lean ====
section
/-! SUPPORT. Statements for all instructions, one lemma per constructor of `Instr`. -/

namespace Sys2Proof.Laws.WholeFrames

/-- The encoder makes a whole frame of every well-formed command (30_encoding.md R80, R90). -/
def Statement (i : Sys2Proof.Instr) : Prop := i.wf = true → Sys2Proof.wholeFrame (Sys2Proof.encode i) = true

theorem setKey (key : ByteString) : Statement (.setKey key) := fun h =>
  wholeFrame_cmdFrame (by simpa [Instr.wf] using h)

theorem encryptBlock (block : Block) : Statement (.encryptBlock block) := fun _ =>
  wholeFrame_cmdFrame (by simp [maxPayload])

theorem decryptBlock (block : Block) : Statement (.decryptBlock block) := fun _ =>
  wholeFrame_cmdFrame (by simp [maxPayload])

theorem selectSbox (oid : ByteString) : Statement (.selectSbox oid) := fun h =>
  wholeFrame_cmdFrame (by simpa [Instr.wf] using h)

theorem configUnsupported (op : Byte) (payload : ByteString) : Statement (.configUnsupported op payload) :=
  fun h => wholeFrame_cmdFrame (by
    simp only [Instr.wf, Bool.and_eq_true, decide_eq_true_eq] at h
    exact h.2)

end Sys2Proof.Laws.WholeFrames
end

