-- ==== Sys2Proof/Laws/Safety.lean ====
section
/-! SUPPORT. The reference forms against the machine: idleness, the active table by its words, and the
sequencer as the list of pairs it runs. -/

namespace Sys2Proof.Machine

theorem idle_iff {s : State} : s.idle = true ↔
    s.n1 = 0 ∧ s.n2 = 0 ∧ s.rc = 0 ∧ s.dir = 0 ∧ s.pbuf = [] ∧ s.obuf = [] := by
  simp [State.idle, and_assoc]

/-- On an idle engine an error changes nothing but the responses (60_exceptions.md R184). -/
theorem raise_of_idle {s : State} (h : s.idle = true) (e : Status) :
    s.raise e = { s with outbox := s.outbox ++ [[e.code, 0x00#8, 0x00#8, 0x00#8]] } := by
  obtain ⟨h1, h2, h3, h4, h5, h6⟩ := idle_iff.1 h
  cases s
  simp only at h1 h2 h3 h4 h5 h6
  subst h1 h2 h3 h4 h5 h6
  rfl

/-- The words of the active table are what the engine reads (20_memory.md R52). -/
theorem activeTable_of_reads {s : State} {T : Fin 4 → Byte → Word} (h : s.reads T) :
    s.activeTable = some T := by
  obtain ⟨hv, h⟩ := h
  have hl : (s.tsel + 1) * tableWords ≤ s.srom.length := by
    have := (List.getElem?_eq_some_iff.1 (h 3 255#8)).1
    simp [tableWords] at *
    omega
  rw [activeTable_eq_some]
  refine ⟨hl, hv, ?_⟩
  funext i j
  have := h i j
  rw [romRead_eq _ _ hl] at this
  simpa using this.symm

theorem reads_of_activeTable {s : State} {T : Fin 4 → Byte → Word} (h : s.activeTable = some T) :
    s.reads T := by
  obtain ⟨hl, hv, rfl⟩ := activeTable_eq_some.1 h
  exact ⟨hv, fun i j => romRead_eq _ _ hl i j⟩

/-- On compiled ROMs the active table is the compiler's (20_memory.md R51). -/
theorem reads_of_compiled {s : State} {set : SboxSet} {r : SboxRecord} (h : s.holdsCompiled set)
    (hv : s.tselValid = true) (hr : set[s.tsel]? = some r) : s.reads (compileEntry r.compact) := by
  refine ⟨hv, fun i j => ?_⟩
  rw [h.1, Nat.add_assoc, getElem?_sromImage _ _ _ (by omega), hr, Option.bind_some, getElem?_compile]

/-! ### The sequencer as pairs -/

variable (T : Fin 4 → Byte → Word)

/-- Pair number `p` of a direction (43_feistel_engine.md R154). -/
def schedulePair (dir : BitVec 1) (p : Fin 16) : Fin 8 × Fin 8 :=
  (sched dir ⟨2 * p.val, by omega⟩, sched dir ⟨2 * p.val + 1, by omega⟩)

/-- The pairs of a direction, in order. -/
def schedulePairs (dir : BitVec 1) : List (Fin 8 × Fin 8) := (List.finRange 16).map (schedulePair dir)

theorem schedulePairs_encrypt : schedulePairs 0 = encryptPairs := by decide

theorem schedulePairs_decrypt : schedulePairs 1 = decryptPairs := by decide

/-- The pairs of decryption are those of encryption in reverse order, each exchanged (R154). -/
theorem decryptPairs_eq : decryptPairs = encryptPairs.reverse.map Prod.swap := by decide

theorem encryptPairs_eq : encryptPairs = decryptPairs.reverse.map Prod.swap := by decide

/-- Two round applications from an even `RC` are one pair (R153, R154). -/
theorem roundApplications_two {s : State} (p : Fin 16) (h : s.rc = BitVec.ofNat 6 (2 * p.val)) :
    s.roundApplications T 2 =
      let n := pairStep T s.k (s.n1, s.n2) (schedulePair s.dir p)
      { s with n1 := n.1, n2 := n.2, rc := BitVec.ofNat 6 (2 * (p.val + 1)) } := by
  have h0 : s.rc.toNat = 2 * p.val := by
    rw [h, BitVec.toNat_ofNat]
    omega
  have h1 : (s.rc + 1).toNat = 2 * p.val + 1 := by
    rw [BitVec.toNat_add, h0]
    simp
    omega
  have h2 : s.rc + 1 + 1 = BitVec.ofNat 6 (2 * (p.val + 1)) := by
    apply BitVec.eq_of_toNat_eq
    rw [BitVec.toNat_add, h1, BitVec.toNat_ofNat]
    simp
    omega
  have even : s.roundApplication T =
      { s with n2 := (pairStep T s.k (s.n1, s.n2) (schedulePair s.dir p)).2, rc := s.rc + 1 } := by
    rcases roundApplication_cases T s with ⟨h, _⟩ | ⟨_, _, e⟩ | ⟨_, h, _⟩
    · omega
    · rw [e]
      simp only [h0, pairStep, schedulePair]
    · omega
  have odd : ∀ t : State, t.rc = s.rc + 1 → t.roundApplication T =
      { t with n1 := t.n1 ^^^ roundFn T t.n2 (t.k.get (sched t.dir ⟨2 * p.val + 1, by omega⟩)),
               rc := BitVec.ofNat 6 (2 * (p.val + 1)) } := by
    intro t ht
    rcases roundApplication_cases T t with ⟨h, _⟩ | ⟨_, h, _⟩ | ⟨_, _, e⟩
    · rw [ht] at h
      omega
    · rw [ht] at h
      omega
    · rw [e]
      simp only [ht, h1, h2]
  change (s.roundApplication T).roundApplication T = _
  rw [odd _ (by rw [even]), even]
  rfl

/-- An even number of round applications from `RC = 0` runs that many pairs. -/
theorem roundApplications_pairs {s : State} (h : s.rc = 0) (p : Nat) (hp : p ≤ 16) :
    s.roundApplications T (2 * p) =
      let n := ((schedulePairs s.dir).take p).foldl (pairStep T s.k) (s.n1, s.n2)
      { s with n1 := n.1, n2 := n.2, rc := BitVec.ofNat 6 (2 * p) } := by
  induction p with
  | zero =>
    cases s
    simp only at h
    subst h
    rfl
  | succ p ih =>
    have hlt : p < 16 := by omega
    have hp' : (schedulePairs s.dir)[p]? = some (schedulePair s.dir ⟨p, hlt⟩) := by
      simp [schedulePairs, hlt]
    rw [Nat.mul_succ, roundApplications_add, ih (by omega), roundApplications_two T ⟨p, hlt⟩ rfl,
      List.take_add_one, hp', List.foldl_append]
    rfl

/-- Undoing a pair: the registers exchanged, the pair exchanged (43_feistel_engine.md R156). -/
theorem pairStep_undo (ks : Subkeys) (n : Word × Word) (p : Fin 8 × Fin 8) :
    pairStep T ks (pairStep T ks n p).swap p.swap = n.swap := by
  simp [pairStep, Prod.swap]

/-- Undoing a run of pairs. -/
theorem pairs_undo (ks : Subkeys) (l : List (Fin 8 × Fin 8)) (n : Word × Word) :
    (l.reverse.map Prod.swap).foldl (pairStep T ks) (l.foldl (pairStep T ks) n).swap = n.swap := by
  induction l generalizing n with
  | nil => rfl
  | cons p l ih =>
    rw [List.foldl_cons, List.reverse_cons, List.map_append, List.foldl_append, ih]
    exact pairStep_undo T ks n p

/-- A processed block, over the pairs of its direction. -/
theorem processBlock_eq (dir : BitVec 1) (b : Block) (s : State) :
    s.processBlock T dir b =
      { s with n1 := 0, n2 := 0, rc := 0, dir := 0, pbuf := [], obuf := [],
               outbox := s.outbox ++ [rspFrame .ok (cipherBlock (schedulePairs dir) T s.k b)] } := by
  unfold State.processBlock
  extract_lets loaded
  have e := roundApplications_pairs T (s := loaded) rfl 16 (by omega)
  change _ = { loaded with
    n1 := (((schedulePairs dir).take 16).foldl (pairStep T s.k)
      (le32 b.b0 b.b1 b.b2 b.b3, le32 b.b4 b.b5 b.b6 b.b7)).1,
    n2 := (((schedulePairs dir).take 16).foldl (pairStep T s.k)
      (le32 b.b0 b.b1 b.b2 b.b3, le32 b.b4 b.b5 b.b6 b.b7)).2,
    rc := BitVec.ofNat 6 (2 * 16) } at e
  rw [List.take_of_length_le (by simp [schedulePairs])] at e
  unfold cipherBlock
  generalize (schedulePairs dir).foldl (pairStep T s.k) _ = n at e ⊢
  rw [show Config.numRounds = 2 * 16 from rfl, e]
  rfl

/-- A block command answers with its error or with its cipher text. -/
theorem exec_block_next {i : Instr} {s t : State} (hb : i.isBlock = true) (h : exec i s = .next t) :
    ∃ r, t = { s with n1 := 0, n2 := 0, rc := 0, dir := 0, pbuf := [], obuf := [],
                      outbox := s.outbox ++ [r] } := by
  have key : ∀ dir b, blockCommand dir b s = .next t → ∃ r, t =
      { s with n1 := 0, n2 := 0, rc := 0, dir := 0, pbuf := [], obuf := [], outbox := s.outbox ++ [r] } := by
    intro dir b h
    rcases blockCommand_next h with ⟨_, rfl⟩ | ⟨_, T, _, rfl⟩
    · exact ⟨_, rfl⟩
    · exact ⟨_, processBlock_eq T dir b s⟩
  cases i with
  | encryptBlock b => exact key 0 b h
  | decryptBlock b => exact key 1 b h
  | setKey _ => simp [Instr.isBlock] at hb
  | selectSbox _ => simp [Instr.isBlock] at hb
  | configUnsupported _ _ => simp [Instr.isBlock] at hb

end Sys2Proof.Machine
end

