-- ==== Sys2Proof/Laws/Text.lean ====
section
/-! SUPPORT. The digits of the textual syntax (30_encoding.md R91): a byte written is the byte read. -/

namespace Sys2Proof.Machine.Text

theorem hexValue_hexDigit (v : Fin 16) : hexValue (hexDigit v.val) = some v.val := by
  revert v
  decide +kernel

theorem hexByte_hexDigits (b : Byte) :
    hexByte [hexDigit (b.toNat / 16), hexDigit (b.toNat % 16)] = some b := by
  have digits_of (n : Fin 256) :
      hexByte [hexDigit (n.val / 16), hexDigit (n.val % 16)] = some (BitVec.ofNat 8 n.val) := by
    revert n
    decide +kernel
  simpa using digits_of ⟨b.toNat, b.isLt⟩

/-- No digit is the space that separates words. -/
theorem hexDigit_ne_space (v : Fin 16) : hexDigit v.val ≠ ' ' := by
  revert v
  decide +kernel

end Sys2Proof.Machine.Text
end

