-- ==== Sys2Proof/Tests/Slice0.lean ====
section
/-! SUPPORT. Tests. Expected results are the spec's: 95_test_vectors.md (fixture tables of its section
3, entries of 4.1, rounds of 5, blocks of 6.2, programs of 7), the encoding examples of R89, R91 and
R171. Then one witness for each statement with hypotheses: concrete states and operands that meet
them. -/

namespace Sys2Proof.Tests

open Sys2Proof.Machine

/-! ### The fixture (95_test_vectors.md section 3) -/

def fixId : CompactTable := Vector.ofFn fun r => Vector.ofFn fun _ => BitVec.ofNat 4 r.val

def fixAb : CompactTable := Vector.ofFn fun r => Vector.ofFn fun c =>
  if c.val % 2 = 0 then BitVec.ofNat 4 (7 * r.val + 3) else BitVec.ofNat 4 (5 * r.val + 9)

def fixCol8 : CompactTable := Vector.ofFn fun r => Vector.ofFn fun c =>
  BitVec.ofNat 4 ((2 * c.val + 1) * r.val + c.val)

/-- `1.3.9999.<digit>`. -/
def fixOid (digit : Byte) : ByteString :=
  [0x31#8, 0x2E#8, 0x33#8, 0x2E#8, 0x39#8, 0x39#8, 0x39#8, 0x39#8, 0x2E#8, digit]

def fixSet : SboxSet :=
  [⟨Config.testName, fixOid 0x30#8, fixId⟩, ⟨[0x61#8], fixOid 0x31#8, fixAb⟩, ⟨[0x63#8], fixOid 0x32#8, fixCol8⟩]

/-- Reset, on the fixture registry. -/
def fresh : State := State.resetWith fixSet

/-- The key of section 1, as bytes and as section 6.1 decodes it. -/
def katBytes : ByteString :=
  [0x86#8, 0x3C#8, 0x01#8, 0xE5#8, 0xC2#8, 0x0B#8, 0x2E#8, 0x3F#8, 0xBB#8, 0x36#8, 0xD4#8, 0xDC#8,
   0x45#8, 0x99#8, 0xE2#8, 0x3F#8, 0x4A#8, 0x55#8, 0x44#8, 0xF1#8, 0xB8#8, 0xBE#8, 0xFF#8, 0x84#8,
   0x53#8, 0x64#8, 0xF2#8, 0x33#8, 0x9D#8, 0x70#8, 0x89#8, 0x7D#8]

def katKey : Subkeys :=
  { k0 := 0xE5013C86, k1 := 0x3F2E0BC2, k2 := 0xDCD436BB, k3 := 0x3FE29945
    k4 := 0xF144554A, k5 := 0x84FFBEB8, k6 := 0x33F26453, k7 := 0x7D89709D }

/-- A keyed engine with table `t` active. -/
def keyedWith (t : Nat) : State :=
  { fresh with k := katKey, keyValid := true, tsel := t, tselValid := true }

def katPt : Block := ⟨0xCF#8, 0xF1#8, 0x90#8, 0xC2#8, 0xC5#8, 0x19#8, 0x00#8, 0x4B#8⟩

/-- The engine with one frame waiting. -/
def sent (s : State) (bytes : ByteString) : State := { s with inbox := [.frame bytes] }

/-- The last response of a run that goes on. -/
def response (o : Host.Outcome State Fault Refusal) : Option ByteString :=
  match o with
  | .next t => t.outbox.getLast?
  | .fault _ => none
  | .refused _ => none

/-- A test on the next state. -/
def nextIs (o : Host.Outcome State Fault Refusal) (p : State → Bool) : Bool :=
  match o with
  | .next t => p t
  | .fault _ => false
  | .refused _ => false

/-! ### Well-formedness: a term each check refuses -/

theorem test_wf_refuses_long_key : (Instr.setKey (List.replicate 65536 0x00#8)).wf = false := by
  simp only [Instr.wf, maxPayload, List.length_replicate]; decide

theorem test_wf_refuses_long_oid : (Instr.selectSbox (List.replicate 65536 0x31#8)).wf = false := by
  simp only [Instr.wf, maxPayload, List.length_replicate]; decide

theorem test_wf_refuses_select_as_unsupported : (Instr.configUnsupported 0x01#8 []).wf = false := by decide

theorem test_wf_refuses_long_payload :
    (Instr.configUnsupported 0x07#8 (List.replicate 65536 0x00#8)).wf = false := by
  simp only [Instr.wf, maxPayload, List.length_replicate]; decide

/-! ### Decoding (R88, R89; frames of 95_test_vectors.md section 7) -/

theorem test_decode_set_key : decode ([0x01#8, 0x00#8, 0x20#8, 0x00#8] ++ katBytes) = .ok (.setKey katBytes) := by
  decide

theorem test_decode_encrypt_block :
    decode [0x02#8, 0x00#8, 0x08#8, 0x00#8, 0xCF#8, 0xF1#8, 0x90#8, 0xC2#8, 0xC5#8, 0x19#8, 0x00#8, 0x4B#8] =
      .ok (.encryptBlock katPt) := by decide

theorem test_decode_decrypt_block :
    decode [0x03#8, 0x00#8, 0x08#8, 0x00#8, 0xCF#8, 0xF1#8, 0x90#8, 0xC2#8, 0xC5#8, 0x19#8, 0x00#8, 0x4B#8] =
      .ok (.decryptBlock katPt) := by decide

theorem test_decode_select :
    decode [0x04#8, 0x01#8, 0x0A#8, 0x00#8,
      0x31#8, 0x2E#8, 0x33#8, 0x2E#8, 0x39#8, 0x39#8, 0x39#8, 0x39#8, 0x2E#8, 0x31#8] =
      .ok (.selectSbox (fixOid 0x31#8)) := by decide

theorem test_decode_unsupported : decode [0x04#8, 0x07#8, 0x02#8, 0x00#8, 0xAA#8, 0xBB#8] =
    .ok (.configUnsupported 0x07#8 [0xAA#8, 0xBB#8]) := by decide

/-- Program 2, lines 9 to 12, and a truncated string. -/
theorem test_decode_rejections :
    decode [0x00#8, 0x00#8, 0x00#8, 0x00#8] = .error .unknownOpc
    ∧ decode [0x05#8, 0x00#8, 0x02#8, 0x00#8, 0xAA#8, 0xBB#8] = .error .unknownOpc
    ∧ decode [0x02#8, 0x01#8, 0x08#8, 0x00#8, 1, 2, 3, 4, 5, 6, 7, 8] = .error .straySubop
    ∧ decode [0x02#8, 0x00#8, 0x07#8, 0x00#8, 1, 2, 3, 4, 5, 6, 7] = .error .blockLen
    ∧ decode [0x01#8, 0x00#8, 0x20#8] = .error .notWholeFrame := by decide

/-- The LEN field's high byte is frame byte 3 (R81). -/
theorem test_encode_len_high_byte :
    (encode (.configUnsupported 0x00#8 (List.replicate 259 0xAA#8))).take 5 =
      [0x04#8, 0x00#8, 0x03#8, 0x01#8, 0xAA#8] := by decide +kernel

theorem test_table_words :
    decodeTableWord 32 0x00000001 = some (.setKey [])
    ∧ decodeTableWord 32 0x00080002 = some (.encryptBlock ⟨0, 0, 0, 0, 0, 0, 0, 0⟩)
    ∧ decodeTableWord 32 0x00080003 = some (.decryptBlock ⟨0, 0, 0, 0, 0, 0, 0, 0⟩)
    ∧ decodeTableWord 32 0x00000104 = some (.selectSbox [])
    ∧ decodeTableWord 32 0x00000004 = some (.configUnsupported 0x00#8 [])
    ∧ decodeTableWord 32 0x00000000 = none := by decide

/-- A fetched word is the next input of the model's own reset state, whatever the parameter is. -/
theorem test_fetch_word_runs :
    nextIs (step (State.reset.withFetchWord 32 0x00000001)) (fun t => t.outbox == [[0x01#8, 0, 0, 0]]) = true
    ∧ nextIs (step (State.reset.withFetchWord 32 0x00080002)) (fun t => t.outbox == [[0x04#8, 0, 0, 0]]) = true
    ∧ nextIs (step (State.reset.withFetchWord 32 0x00000004)) (fun t => t.outbox == [[0x03#8, 0, 0, 0]]) = true := by
  decide

/-! ### The table compiler and the round function (95_test_vectors.md 4.1, 4.4, 5) -/

theorem test_compile_entries :
    compileEntry fixAb 0 0x00#8 = 0x00049800#32 ∧ compileEntry fixCol8 1 0xA5#8 = 0x04D80000#32
    ∧ compileEntry fixCol8 2 0xA5#8 = 0x88000001#32 ∧ compileEntry fixAb 3 0x80#8 = 0x00000098#32
    ∧ compileEntry fixCol8 3 0xFF#8 = 0x00000448#32 := by decide +kernel

theorem test_nibble_substitute :
    nibbleSubstitute fixCol8 0xACF13568#32 = 0xD2AD8B38#32
    ∧ nibbleSubstitute fixAb 0xFFFFFFFE#32 = 0x4C4C4C45#32 := by decide +kernel

theorem test_round :
    roundFn (compileEntry fixCol8) 0x12345678#32 0x9ABCDEF0#32 = 0x6C59C695#32
    ∧ roundFn (compileEntry fixAb) 0xFFFFFFFF#32 0x00000001#32 = 0x9C9C9C9C#32 := by decide +kernel

/-- The word index of 20_memory.md R52: table 2, position 1, byte 0xA5. -/
theorem test_srom_address : (sromImage fixSet)[2 * 1024 + 1 * 256 + 0xA5]? = some 0x04D80000#32 := by
  decide +kernel

/-! ### The commands -/

/-- Program 2 line 4 and section 6.1: key decoding, default table. -/
theorem test_set_key_default_table : nextIs (exec (.setKey katBytes) fresh)
    (fun t => t.k == katKey && t.keyValid && t.tselValid && t.tsel == 0 && t.outbox == [[0, 0, 0, 0]]) = true := by
  decide +kernel

/-- Program 2 line 2: 31 bytes, no default assigned. -/
theorem test_set_key_31_bytes : nextIs (exec (.setKey (katBytes.take 31)) fresh)
    (fun t => !t.keyValid && !t.tselValid && t.k == .zero && t.outbox == [[0x01#8, 0, 0, 0]]) = true := by
  decide +kernel

/-- The active table's words are those of the fixture table, for each fixture table. -/
theorem keyedWith_reads : (keyedWith 0).reads (compileEntry fixId) :=
  reads_of_compiled (s := keyedWith 0) (set := fixSet) (r := ⟨Config.testName, fixOid 0x30#8, fixId⟩)
    ⟨rfl, rfl⟩ rfl rfl

theorem keyedWith_reads_ab : (keyedWith 1).reads (compileEntry fixAb) :=
  reads_of_compiled (s := keyedWith 1) (set := fixSet) (r := ⟨[0x61#8], fixOid 0x31#8, fixAb⟩)
    ⟨rfl, rfl⟩ rfl rfl

theorem keyedWith_reads_col8 : (keyedWith 2).reads (compileEntry fixCol8) :=
  reads_of_compiled (s := keyedWith 2) (set := fixSet) (r := ⟨[0x63#8], fixOid 0x32#8, fixCol8⟩)
    ⟨rfl, rfl⟩ rfl rfl

/-- A block command on known table words. -/
theorem exec_encrypt_of_reads {s : State} {T : Fin 4 → Byte → Word} (hk : s.keyValid = true) (hr : s.reads T)
    (b : Block) : exec (.encryptBlock b) s = .next (s.processBlock T 0 b) :=
  blockCommand_of_table hk (activeTable_of_reads hr) 0 b

theorem exec_decrypt_of_reads {s : State} {T : Fin 4 → Byte → Word} (hk : s.keyValid = true) (hr : s.reads T)
    (b : Block) : exec (.decryptBlock b) s = .next (s.processBlock T 1 b) :=
  blockCommand_of_table hk (activeTable_of_reads hr) 1 b

/-- Section 6.2, `FIX_COL8`, KAT key. -/
theorem test_encrypt_fix_col8 : response (exec (.encryptBlock katPt) (keyedWith 2)) =
    some [0x00#8, 0x00#8, 0x08#8, 0x00#8, 0xC2#8, 0xF0#8, 0x88#8, 0xC2#8, 0x90#8, 0x1E#8, 0x19#8, 0xE4#8] := by
  rw [exec_encrypt_of_reads (s := keyedWith 2) rfl keyedWith_reads_col8]
  decide +kernel

/-- Program 2 line 1. -/
theorem test_encrypt_no_key : response (exec (.encryptBlock katPt) fresh) = some [0x04#8, 0, 0, 0] := by
  decide +kernel

/-- Section 6.2, `FIX_AB`, KAT key. -/
theorem test_decrypt_fix_ab : response (exec (.decryptBlock katPt) (keyedWith 1)) =
    some [0x00#8, 0x00#8, 0x08#8, 0x00#8, 0x50#8, 0x59#8, 0xED#8, 0xB2#8, 0x2D#8, 0xFC#8, 0xC8#8, 0xAC#8] := by
  rw [exec_decrypt_of_reads (s := keyedWith 1) rfl keyedWith_reads_ab]
  decide +kernel

/-- Program 2 line 13: decryption of line 5's output. -/
theorem test_decrypt_inverts :
    response (exec (.decryptBlock ⟨0x14#8, 0x60#8, 0x29#8, 0xA3#8, 0x06#8, 0x39#8, 0x33#8, 0x51#8⟩) (keyedWith 0)) =
    some [0x00#8, 0x00#8, 0x08#8, 0x00#8, 0xCF#8, 0xF1#8, 0x90#8, 0xC2#8, 0xC5#8, 0x19#8, 0x00#8, 0x4B#8] := by
  rw [exec_decrypt_of_reads (s := keyedWith 0) rfl keyedWith_reads]
  decide +kernel

/-- Program 3 line 1: selection before any key. -/
theorem test_select_before_key : nextIs (exec (.selectSbox (fixOid 0x32#8)) fresh)
    (fun t => t.tsel == 2 && t.tselValid && !t.keyValid && t.outbox == [[0, 0, 0, 0]]) = true := by
  decide +kernel

/-- Program 3 line 7: the empty payload. -/
theorem test_select_empty : nextIs (exec (.selectSbox []) (keyedWith 2))
    (fun t => t.tsel == 2 && t.outbox == [[0x02#8, 0, 0, 0]]) = true := by decide +kernel

/-- Program 3 line 6: an unknown operation with a valid OID. -/
theorem test_unsupported : nextIs (exec (.configUnsupported 0x07#8 (fixOid 0x31#8)) (keyedWith 2))
    (fun t => t.tsel == 2 && t.outbox == [[0x03#8, 0, 0, 0]]) = true := by decide +kernel

/-- The third round of the trace of section 6.5. -/
theorem test_round_application :
    let s := State.roundApplication (compileEntry fixCol8)
      { keyedWith 2 with n1 := 0x55182F88#32, n2 := 0x7BC03749#32, rc := 2 }
    s.n1 = 0x55182F88#32 ∧ s.n2 = 0xFD46AD56#32 ∧ s.rc = 3 := by decide +kernel

/-! ### The step -/

/-- Program 2 line 12: the frame of 6 bytes is consumed. -/
theorem test_step_illegal : nextIs (step (sent fresh [0x05#8, 0x00#8, 0x02#8, 0x00#8, 0xAA#8, 0xBB#8]))
    (fun t => t.inbox == [] && t.outbox == [[0x05#8, 0, 0, 0]]) = true := by decide +kernel

theorem test_step_reset : nextIs (step { keyedWith 2 with inbox := [.reset] })
    (fun t => t.k == .zero && !t.keyValid && !t.tselValid && t.outbox == []) = true := by decide +kernel

/-! ### Text (R91) -/

theorem test_assemble_encrypt : Text.assemble
    ['e', 'n', 'c', 'r', 'y', 'p', 't', '_', 'b', 'l', 'o', 'c', 'k', ' ', ' ', 'C', 'F', ' ', 'F', '1', ' ', '9', '0',
     ' ', 'C', '2', ' ', 'C', '5', ' ', '1', '9', ' ', '0', '0', ' ', '4', 'B'] = some (.encryptBlock katPt) := by
  decide +kernel

theorem test_assemble_select : Text.assemble
    ['c', 'o', 'n', 'f', 'i', 'g', 'u', 'r', 'e', ' ', 's', 'e', 'l', 'e', 'c', 't', '_', 's', 'b', 'o', 'x', ' ', '"',
     '1', '.', '3', '.', '9', '9', '9', '9', '.', '1', '"'] = some (.selectSbox (fixOid 0x31#8)) := by
  decide +kernel

/-- The model's choice (log entry 13): an inner quote is a payload byte. -/
theorem test_quoted_inner_quote : Text.quoted ['"', '1', '"', '2', '"', ' '] = some [0x31#8, 0x22#8, 0x32#8]
    ∧ Text.quoted ['"', '"'] = some [] ∧ Text.quoted ['"', '1', '"', '2'] = none := by decide +kernel

theorem test_assemble_numeric : Text.assemble
    ['c', 'o', 'n', 'f', 'i', 'g', 'u', 'r', 'e', ' ', '0', 'x', '0', '7', ' ', 'A', 'A', ' ', 'B', 'B'] =
      some (.configUnsupported 0x07#8 [0xAA#8, 0xBB#8]) := by decide +kernel

/-- Digits are the ASCII ranges `0`..`9`, `A`..`F`, `a`..`f`, and nothing beside them. -/
theorem test_hex_digits :
    ['0', '9', 'A', 'F', 'a', 'f'].map Text.hexValue = [some 0, some 9, some 10, some 15, some 10, some 15]
    ∧ ['/', ':', '@', 'G', '`', 'g'].map Text.hexValue = [none, none, none, none, none, none] := by decide +kernel

theorem test_show_response : Text.showResponse [0x00#8, 0x00#8, 0x01#8, 0x00#8, 0xD4#8] =
    some ['-', '>', ' ', 'O', 'K', ' ', 'D', '4'] := by decide +kernel

/-! ### Witnesses -/

theorem fixSet_wf : fixSet.wf = true := by decide

theorem keyedWith_invariant : Invariant (keyedWith 0) where
  roms := ⟨fixSet, fixSet_wf, rfl, length_sromImage fixSet⟩
  idle := rfl
  keyed_has_table := fun _ => rfl
  tsel_in_range := fun _ => by decide
  unkeyed_zero := by simp [keyedWith]

theorem fresh_idle : fresh.idle = true := rfl

theorem witness_StepRunsTheDecodedCommand :
    (sent fresh [0x04#8, 0x00#8, 0x00#8, 0x00#8]).inbox = .frame [0x04#8, 0x00#8, 0x00#8, 0x00#8] :: []
    ∧ decode [0x04#8, 0x00#8, 0x00#8, 0x00#8] = .ok (.configUnsupported 0x00#8 []) := by decide

theorem witness_IdleEngineKeepsItsState : fresh.inbox = [] := rfl

/-- Each illegal case at its boundary, and a legal header beside each. -/
theorem witness_IllegalFramesChangeNothing :
    (sent fresh [0x05#8, 0x00#8, 0x00#8, 0x00#8]).idle = true
    ∧ (sent fresh [0x05#8, 0x00#8, 0x00#8, 0x00#8]).inbox = .frame [0x05#8, 0x00#8, 0x00#8, 0x00#8] :: []
    ∧ ([] : ByteString).length = le16 0x00#8 0x00#8
    ∧ illegalHeader 0x05#8 0x00#8 0 ∧ illegalHeader 0x00#8 0x00#8 0 ∧ illegalHeader 0x01#8 0x01#8 32
    ∧ illegalHeader 0x02#8 0x00#8 7 ∧ illegalHeader 0x03#8 0x00#8 9
    ∧ ¬ illegalHeader 0x04#8 0xFF#8 0 ∧ ¬ illegalHeader 0x01#8 0x00#8 0 ∧ ¬ illegalHeader 0x03#8 0x00#8 8 := by
  refine ⟨rfl, rfl, rfl, ?_⟩
  simp [illegalHeader]

theorem witness_FrameChecksComeFirst :
    (sent fresh [0x02#8, 0x00#8, 0x00#8, 0x00#8]).keyValid = false
    ∧ (sent fresh [0x02#8, 0x00#8, 0x00#8, 0x00#8]).inbox = .frame (0x02#8 :: 0x00#8 :: 0x00#8 :: 0x00#8 :: []) :: []
    ∧ ([] : ByteString).length = le16 0x00#8 0x00#8 ∧ ([] : ByteString).length ≠ 8
    ∧ (0x01#8 ≠ 0x00#8 ∧ (sent fresh [0x01#8, 0x01#8, 0x00#8, 0x00#8]).inbox =
        .frame (0x01#8 :: 0x01#8 :: 0x00#8 :: 0x00#8 :: []) :: [])
    ∧ (0x00#8 ≠ 0x01#8 ∧ (sent fresh [0x04#8, 0x00#8, 0x00#8, 0x00#8]).inbox =
        .frame (0x04#8 :: 0x00#8 :: 0x00#8 :: 0x00#8 :: []) :: []) := by decide

theorem witness_DecodeInvertsEncode :
    (Instr.setKey katBytes).wf = true ∧ (Instr.configUnsupported 0x00#8 []).wf = true
    ∧ (Instr.configUnsupported 0x02#8 [0x01#8]).wf = true ∧ (Instr.selectSbox []).wf = true := by decide

theorem witness_EncodeInvertsDecode : decode [0x01#8, 0x00#8, 0x00#8, 0x00#8] = .ok (.setKey []) := by decide

/-- A header for each clause. -/
theorem witness_OpcodeMapByMatchAndMask :
    (headerWord 0x01#8 0x00#8 0x00#8 0x00#8 &&& 0x0000FFFF#32 = 0x00000001#32
      ∧ ([] : ByteString).length = le16 0x00#8 0x00#8)
    ∧ (headerWord 0x02#8 0x00#8 0x08#8 0x00#8 &&& 0xFFFFFFFF#32 = 0x00080002#32
      ∧ katPt.bytes.length = le16 0x08#8 0x00#8)
    ∧ headerWord 0x03#8 0x00#8 0x08#8 0x00#8 &&& 0xFFFFFFFF#32 = 0x00080003#32
    ∧ headerWord 0x04#8 0x01#8 0x00#8 0x00#8 &&& 0x0000FFFF#32 = 0x00000104#32
    ∧ (headerWord 0x04#8 0x00#8 0x00#8 0x00#8 &&& 0x0000FFFF#32 ≠ 0x00000104#32
      ∧ headerWord 0x04#8 0x00#8 0x00#8 0x00#8 &&& 0x000000FF#32 = 0x00000004#32)
    ∧ (let H := headerWord 0x05#8 0x00#8 0x00#8 0x00#8
      H &&& 0x0000FFFF#32 ≠ 0x00000001#32 ∧ H &&& 0xFFFFFFFF#32 ≠ 0x00080002#32
      ∧ H &&& 0xFFFFFFFF#32 ≠ 0x00080003#32 ∧ H &&& 0x000000FF#32 ≠ 0x00000004#32) := by decide

/-- For the statements on a 32-byte key. -/
theorem witness_KeyBytesFillSubkeysLittleEndian : katBytes.length = 32 := by decide

theorem witness_SetKeyWritesTheContext : katBytes.length = 32 := by decide

/-- Both sides of the boundary, the empty key, and the idle engine. -/
theorem witness_WrongKeyLengthKeepsTheContext :
    (katBytes.take 31).length ≠ 32 ∧ (katBytes ++ [0x00#8]).length ≠ 32 ∧ ([] : ByteString).length ≠ 32
    ∧ fresh.idle = true := by decide

theorem witness_RekeyingReplacesTheKey : katBytes.length = 32 ∧ katBytes.reverse.length = 32 ∧ katBytes = katBytes := by
  decide

theorem witness_EncryptBlockRunsTheEncryptionPairs :
    (keyedWith 0).keyValid = true ∧ (keyedWith 0).reads (compileEntry fixId) := ⟨rfl, keyedWith_reads⟩

theorem witness_DecryptBlockRunsTheDecryptionPairs :
    (keyedWith 0).keyValid = true ∧ (keyedWith 0).reads (compileEntry fixId) := ⟨rfl, keyedWith_reads⟩

theorem witness_BlockCommandWithoutKeyAnswersNoKey : fresh.keyValid = false ∧ fresh.idle = true := ⟨rfl, rfl⟩

/-- A block command that goes on with a key, and one without. -/
theorem witness_BlockCommandsKeepContextAndRoms :
    (∃ t, (Instr.encryptBlock katPt).isBlock = true ∧ exec (.encryptBlock katPt) (keyedWith 0) = .next t)
    ∧ ∃ t, (Instr.decryptBlock katPt).isBlock = true ∧ exec (.decryptBlock katPt) fresh = .next t :=
  ⟨⟨_, rfl, blockCommand_of_table rfl (activeTable_of_reads keyedWith_reads) 0 katPt⟩,
   ⟨_, rfl, blockCommand_of_no_key (s := fresh) rfl 1 katPt⟩⟩

theorem witness_BlockCommandsZeroise :
    (∃ t, (Instr.encryptBlock katPt).isBlock = true ∧ exec (.encryptBlock katPt) (keyedWith 0) = .next t)
    ∧ ∃ t, (Instr.decryptBlock katPt).isBlock = true ∧ exec (.decryptBlock katPt) fresh = .next t :=
  witness_BlockCommandsKeepContextAndRoms

theorem witness_DecryptionInvertsEncryption :
    (keyedWith 0).keyValid = true ∧ (keyedWith 0).reads (compileEntry fixId) := ⟨rfl, keyedWith_reads⟩

theorem witness_BlockResponseDependsOnBlockKeyTable :
    (Instr.encryptBlock katPt).isBlock = true ∧ (Instr.decryptBlock katPt).isBlock = true
    ∧ (keyedWith 0).keyValid = true ∧ (keyedWith 0).reads (compileEntry fixId)
    ∧ ∃ t, exec (.encryptBlock katPt) (keyedWith 0) = .next t :=
  ⟨rfl, rfl, rfl, keyedWith_reads, _, blockCommand_of_table rfl (activeTable_of_reads keyedWith_reads) 0 katPt⟩

theorem witness_EqualSubkeysMakeDirectionsEqual :
    ∃ s : State, s.keyValid = true ∧ s.reads (compileEntry fixId) ∧ ∀ i j, s.k.get i = s.k.get j :=
  ⟨{ keyedWith 0 with k := .zero }, rfl, keyedWith_reads, by
    change ∀ i j, Subkeys.zero.get i = Subkeys.zero.get j
    decide⟩

/-- Both parities, at the ends of the range. -/
theorem witness_RoundApplicationUpdatesOneRegister :
    ((0 : BitVec 6).toNat < 32 ∧ (0 : BitVec 6).toNat % 2 = 0) ∧ ((31 : BitVec 6).toNat < 32 ∧ (31 : BitVec 6).toNat % 2 = 1) := by
  decide

theorem witness_LoadPutsWordsInRegisters :
    ((fresh.accept katPt.bytes).direct 1).pbuf.length = Config.blockBytes := rfl

/-- A state at `RC = 0`, and a block command of each direction. -/
theorem witness_ExactlyThirtyTwoApplications :
    fresh.rc = 0 ∧ (keyedWith 0).keyValid = true ∧ (keyedWith 0).reads (compileEntry fixId)
    ∧ (Instr.encryptBlock katPt = .encryptBlock katPt ∧ (0 : BitVec 1) = 0)
    ∧ (Instr.decryptBlock katPt = .decryptBlock katPt ∧ (1 : BitVec 1) = 1) :=
  ⟨rfl, rfl, keyedWith_reads, ⟨rfl, rfl⟩, rfl, rfl⟩

theorem witness_SromHoldsTheCompiledTables : 0 < fixSet.length ∧ 2 < fixSet.length := by decide

theorem witness_RoundFunctionWithoutTables :
    (keyedWith 0).holdsCompiled fixSet ∧ (keyedWith 0).reads (compileEntry fixId)
    ∧ fixSet[(keyedWith 0).tsel]? = some ⟨Config.testName, fixOid 0x30#8, fixId⟩ :=
  ⟨⟨rfl, rfl⟩, keyedWith_reads, rfl⟩

theorem witness_RoundFunctionDependsOnTheSum :
    ((0xFFFFFFFF#32).toNat + (0x00000001#32).toNat) % 2 ^ 32 = ((0x00000000#32).toNat + (0x00000000#32).toNat) % 2 ^ 32 := by
  decide

/-- An OID of the last record, an unknown one, and a block command that goes on. -/
theorem witness_SelectSboxReplacesTheTableOrKeepsIt :
    lookup fresh.rrom (fixOid 0x32#8) = some 2 ∧ lookup fresh.rrom (fixOid 0x33#8) = none ∧ fresh.idle = true
    ∧ (∃ t, exec (.selectSbox (fixOid 0x33#8)) fresh = .next t) ∧ ∃ u, exec (.encryptBlock katPt) fresh = .next u :=
  ⟨by decide, by decide, rfl, ⟨_, execSelectSbox_of_not_found (s := fresh) (by decide)⟩,
   ⟨_, blockCommand_of_no_key (s := fresh) rfl 0 katPt⟩⟩

theorem witness_LookupFindsTheFirstRecord : fixSet.wf = true ∧ 0x00#8 ∈ [0x31#8, 0x00#8] := by decide

theorem witness_OtherConfigureIsUnsupported : 0x00#8 ≠ 0x01#8 ∧ 0x02#8 ≠ 0x01#8 ∧ fresh.idle = true := by decide

theorem witness_KeyAndSelectionCommute : katBytes.length = 32 ∧ lookup fresh.rrom (fixOid 0x31#8) = some 1 := by decide

theorem witness_DefaultTableIsTheTestOid :
    ((fixSet.map (fun r => r.oid)).Nodup ∧ fixSet.oidTest = some (fixOid 0x30#8))
    ∧ katBytes.length = 32 ∧ fresh.tselValid = false
    ∧ lookup fresh.rrom (fixOid 0x30#8) = some (defaultTable fresh.rrom) := by decide

/-- An error of a command, and one of an illegal frame. -/
theorem witness_ErrorsLeaveTheContext :
    (∃ t, runFrame [0x01#8, 0x00#8, 0x00#8, 0x00#8] fresh = .next t ∧ t.outbox = fresh.outbox ++ [[0x01#8, 0, 0, 0]])
    ∧ (∃ t, runFrame [0x00#8, 0x00#8, 0x00#8, 0x00#8] fresh = .next t ∧ t.outbox = fresh.outbox ++ [[0x05#8, 0, 0, 0]])
    ∧ ([0x01#8, 0, 0, 0] : ByteString)[0]? ≠ some 0x00#8 :=
  ⟨⟨fresh.raise .invalidKeyLength, rfl, rfl⟩, ⟨fresh.raise .illegalCommand, rfl, rfl⟩, by decide⟩

theorem witness_EveryCommandEndsWithAListedStatus :
    (Instr.setKey []).wf = true ∧ ∃ t, exec (.setKey []) fresh = .next t :=
  ⟨rfl, _, execSetKey_of_length_ne (key := []) (by decide) fresh⟩

theorem witness_OneWellFormedResponsePerFrame :
    (∃ t, runFrame [0x01#8, 0x00#8, 0x00#8, 0x00#8] fresh = .next t)
    ∧ ∃ t, runFrame (encode (.encryptBlock katPt)) (keyedWith 0) = .next t :=
  ⟨⟨fresh.raise .invalidKeyLength, rfl⟩,
   ⟨_, blockCommand_of_table rfl (activeTable_of_reads keyedWith_reads) 0 katPt⟩⟩

theorem witness_ResponsesReadBack : ([] : ByteString).length ≤ maxPayload ∧ katPt.bytes.length ≤ maxPayload := by decide

theorem witness_FailedCommandsLeaveNoTrace :
    fresh.idle = true ∧ Status.invalidKeyLength ≠ .ok
    ∧ (∃ t, runFrame [0x01#8, 0x00#8, 0x00#8, 0x00#8] fresh = .next t
      ∧ t.outbox = fresh.outbox ++ [[Status.invalidKeyLength.code, 0x00#8, 0x00#8, 0x00#8]])
    ∧ ∃ u, runFrame [0x00#8, 0x00#8, 0x00#8, 0x00#8] fresh = .next u :=
  ⟨rfl, by decide, ⟨fresh.raise .invalidKeyLength, rfl, rfl⟩, ⟨fresh.raise .illegalCommand, rfl⟩⟩

theorem witness_ResetPutsEveryRegisterAtItsValue :
    ({ keyedWith 0 with inbox := [.reset] } : State).inbox = .reset :: [] := rfl

theorem witness_ResetAbandonsTheCommand :
    wholeFrame [0x01#8, 0x00#8, 0x00#8, 0x00#8] = true
    ∧ ({ keyedWith 0 with inbox := [.frameThenReset [0x01#8, 0x00#8, 0x00#8, 0x00#8]] } : State).inbox =
      .frameThenReset [0x01#8, 0x00#8, 0x00#8, 0x00#8] :: [] := ⟨rfl, rfl⟩

theorem witness_EveryStepKeepsTheInvariant :
    Invariant (keyedWith 0) ∧ ∃ t, step (keyedWith 0) = .next t := ⟨keyedWith_invariant, keyedWith 0, rfl⟩

theorem witness_ResetMeetsTheInvariant : fixSet.wf = true := fixSet_wf

theorem witness_NoFaultFromTheInvariant : Invariant (keyedWith 0) := keyedWith_invariant

theorem witness_EveryFrameGetsOneResponseInOrder :
    ∃ s : State, Invariant s ∧ s.inbox = [encode (.setKey katBytes), encode (.encryptBlock katPt)].map HostInput.frame
    ∧ ∀ f ∈ [encode (.setKey katBytes), encode (.encryptBlock katPt)], wholeFrame f = true :=
  ⟨{ keyedWith 0 with inbox := [encode (.setKey katBytes), encode (.encryptBlock katPt)].map HostInput.frame },
   ⟨keyedWith_invariant.roms, rfl, fun _ => rfl, keyedWith_invariant.tsel_in_range, keyedWith_invariant.unkeyed_zero⟩,
   rfl, by decide⟩

theorem witness_RomsAreReadOnly : ∃ t, step (sent fresh [0x00#8, 0x00#8, 0x00#8, 0x00#8]) = .next t :=
  ⟨_, rfl⟩

/-- A key writes the whole context, a selection `TSEL` and its flag, a reset clears both flags and `K`. -/
theorem witness_OnlyNamedWritersOfTheContext :
    (nextIs (step (sent { fresh with tsel := 1 } (encode (.setKey katBytes))))
      (fun t => t.k != .zero && t.keyValid && t.tsel != 1 && t.tselValid) = true)
    ∧ (nextIs (step (sent fresh (encode (.selectSbox (fixOid 0x32#8))))) (fun t => t.tsel != 0 && t.tselValid) = true)
    ∧ (nextIs (step { keyedWith 2 with inbox := [.reset] })
      (fun t => t.k != katKey && !t.keyValid && t.tsel != 2 && !t.tselValid) = true) := by
  decide +kernel

theorem witness_OnlyResetClearsTheFlags :
    (keyedWith 0).keyValid = true ∧ (keyedWith 0).tselValid = true
    ∧ nextIs (step { keyedWith 0 with inbox := [.reset] }) (fun t => !t.keyValid && !t.tselValid) = true := by
  decide +kernel

theorem witness_KeyedEngineHasItsTable : Invariant (keyedWith 0) ∧ (keyedWith 0).keyValid = true :=
  ⟨keyedWith_invariant, rfl⟩

/-- A command that is no block command, and a block command without a key. -/
theorem witness_KeysAreNotReadBack :
    ((Instr.setKey []).isBlock = false ∧ ∃ t, exec (.setKey []) fresh = .next t)
    ∧ (fresh.keyValid = false ∧ ∃ t, exec (.encryptBlock katPt) fresh = .next t) :=
  ⟨⟨rfl, _, execSetKey_of_length_ne (key := []) (by decide) fresh⟩, ⟨rfl, _, blockCommand_of_no_key (s := fresh) rfl 0 katPt⟩⟩

theorem witness_UnchosenTableIsNeverRead :
    fresh.tselValid = false ∧ ∃ t, exec (.encryptBlock katPt) fresh = .next t :=
  ⟨rfl, _, blockCommand_of_no_key (s := fresh) rfl 0 katPt⟩

theorem witness_InstancesAreIndependent :
    (∃ a, System.stepInstance [fresh, fresh] 0 = .next a ∧ ∃ b, System.stepInstance a 1 = .next b) ∧ (1 : Nat) ≠ 0
    ∧ System.sharesRoms [fresh, fresh] = true :=
  ⟨⟨[fresh, fresh], rfl, [fresh, fresh], rfl⟩, by decide, by simp [System.sharesRoms]⟩

theorem witness_TextOfACommandReadsBack : (Instr.setKey katBytes).wf = true := by decide

end Sys2Proof.Tests
end

section
/-! The opcode map of 30_encoding.md R84: each row's match and mask as a condition on the four header
bytes, and what the decoder answers on each row. -/

namespace Sys2Proof

/-! ### Header words by their bytes -/

theorem headerWord_inj {a b c d a' b' c' d' : Byte} :
    headerWord a b c d = headerWord a' b' c' d' ↔ a = a' ∧ b = b' ∧ c = c' ∧ d = d' := by
  constructor
  · intro h
    simpa [headerWord, le32Bytes_le32] using congrArg le32Bytes h
  · rintro ⟨rfl, rfl, rfl, rfl⟩
    rfl

/-- A mask acts on a header byte by byte. (The library's rule speaks of the width `8 + 8 + 8 + 8`, which
only computes to that of a word, so it is used at that width first.) -/
theorem headerWord_and (a b c d a' b' c' d' : Byte) :
    headerWord a b c d &&& headerWord a' b' c' d' =
      headerWord (a &&& a') (b &&& b') (c &&& c') (d &&& d') := by
  have happend : (d ++ c ++ b ++ a) &&& (d' ++ c' ++ b' ++ a') =
      (d &&& d') ++ (c &&& c') ++ (b &&& b') ++ (a &&& a') := by
    simp only [BitVec.and_append]
  simpa only [headerWord, le32_eq_append] using happend

/-- The mask `0x000000FF` compares `OPC` only. -/
theorem headerWord_opcMask_eq_iff {opc subop lo hi o : Byte} :
    headerWord opc subop lo hi &&& 0x000000FF#32 = headerWord o 0x00#8 0x00#8 0x00#8 ↔ opc = o := by
  rw [show 0x000000FF#32 = headerWord (BitVec.allOnes 8) 0x00#8 0x00#8 0x00#8 from rfl,
    headerWord_and, headerWord_inj]
  simp only [BitVec.and_allOnes, BitVec.and_zero, and_true]

/-- The mask `0x0000FFFF` compares `OPC` and `SUBOP`. -/
theorem headerWord_subopMask_eq_iff {opc subop lo hi o s : Byte} :
    headerWord opc subop lo hi &&& 0x0000FFFF#32 = headerWord o s 0x00#8 0x00#8 ↔ opc = o ∧ subop = s := by
  rw [show 0x0000FFFF#32 = headerWord (BitVec.allOnes 8) (BitVec.allOnes 8) 0x00#8 0x00#8 from rfl,
    headerWord_and, headerWord_inj]
  simp only [BitVec.and_allOnes, BitVec.and_zero, and_true]

/-- The mask `0xFFFFFFFF` compares the whole header. -/
theorem headerWord_fullMask_eq_iff {opc subop lo hi o s l m : Byte} :
    headerWord opc subop lo hi &&& 0xFFFFFFFF#32 = headerWord o s l m ↔
      opc = o ∧ subop = s ∧ lo = l ∧ hi = m := by
  rw [show 0xFFFFFFFF#32 = BitVec.allOnes 32 from rfl, BitVec.and_allOnes, headerWord_inj]

/-! ### The rows' conditions on the header bytes (30_encoding.md R84) -/

theorem meets_setKey_row_iff {opc subop lo hi : Byte} :
    headerWord opc subop lo hi &&& 0x0000FFFF#32 = 0x00000001#32 ↔ opc = opcSetKey ∧ subop = 0x00#8 :=
  headerWord_subopMask_eq_iff (o := opcSetKey) (s := 0x00#8)

theorem meets_encryptBlock_row_iff {opc subop lo hi : Byte} :
    headerWord opc subop lo hi &&& 0xFFFFFFFF#32 = 0x00080002#32 ↔
      opc = opcEncrypt ∧ subop = 0x00#8 ∧ lo = 0x08#8 ∧ hi = 0x00#8 :=
  headerWord_fullMask_eq_iff (o := opcEncrypt) (s := 0x00#8) (l := 0x08#8) (m := 0x00#8)

theorem meets_decryptBlock_row_iff {opc subop lo hi : Byte} :
    headerWord opc subop lo hi &&& 0xFFFFFFFF#32 = 0x00080003#32 ↔
      opc = opcDecrypt ∧ subop = 0x00#8 ∧ lo = 0x08#8 ∧ hi = 0x00#8 :=
  headerWord_fullMask_eq_iff (o := opcDecrypt) (s := 0x00#8) (l := 0x08#8) (m := 0x00#8)

theorem meets_selectSbox_row_iff {opc subop lo hi : Byte} :
    headerWord opc subop lo hi &&& 0x0000FFFF#32 = 0x00000104#32 ↔
      opc = opcConfigure ∧ subop = subopSelect :=
  headerWord_subopMask_eq_iff (o := opcConfigure) (s := subopSelect)

theorem meets_configure_row_iff {opc subop lo hi : Byte} :
    headerWord opc subop lo hi &&& 0x000000FF#32 = 0x00000004#32 ↔ opc = opcConfigure :=
  headerWord_opcMask_eq_iff (o := opcConfigure)

/-! ### What the decoder answers on a row -/

/-- `LEN = 8` has one spelling in the two length bytes. -/
theorem le16_eq_eight_iff {lo hi : Byte} : le16 lo hi = 8 ↔ lo = 0x08#8 ∧ hi = 0x00#8 := by
  constructor
  · intro h
    simpa [h, le16Bytes] using (le16Bytes_le16 lo hi).symm
  · rintro ⟨rfl, rfl⟩
    rfl

/-- The payload of a block command is the block (30_encoding.md R82). -/
theorem decodeBlock_of_length_eight (c : Block → Instr) {p : ByteString} (h : p.length = 8) :
    ∃ b, p = b.bytes ∧ decodeBlock c p = .ok (c b) := by
  cases hb : Block.ofBytes p with
  | none => exact absurd h (Block.ofBytes_eq_none.1 hb)
  | some b => exact ⟨b, Block.ofBytes_eq_some.1 hb, by simp [decodeBlock, hb]⟩

theorem decodeCommand_setKey (p : ByteString) : decodeCommand opcSetKey 0x00#8 p = .ok (.setKey p) := rfl

theorem decodeCommand_encrypt (p : ByteString) :
    decodeCommand opcEncrypt 0x00#8 p = decodeBlock .encryptBlock p := rfl

theorem decodeCommand_decrypt (p : ByteString) :
    decodeCommand opcDecrypt 0x00#8 p = decodeBlock .decryptBlock p := rfl

theorem decodeCommand_select (p : ByteString) :
    decodeCommand opcConfigure subopSelect p = .ok (.selectSbox p) := rfl

theorem decodeCommand_configure {subop : Byte} (h : subop ≠ subopSelect) (p : ByteString) :
    decodeCommand opcConfigure subop p = .ok (.configUnsupported subop p) := by
  simp [decodeCommand, h]

/-- A header that meets no row (R84): `selectSbox`'s row lies inside that of `configure`. -/
theorem decodeCommand_error_of_no_row {opc subop lo hi : Byte} {p : ByteString}
    (hlen : p.length = le16 lo hi)
    (hset : ¬ (opc = opcSetKey ∧ subop = 0x00#8))
    (henc : ¬ (opc = opcEncrypt ∧ subop = 0x00#8 ∧ lo = 0x08#8 ∧ hi = 0x00#8))
    (hdec : ¬ (opc = opcDecrypt ∧ subop = 0x00#8 ∧ lo = 0x08#8 ∧ hi = 0x00#8))
    (hconf : opc ≠ opcConfigure) :
    ∃ e, decodeCommand opc subop p = .error e ∧ e ≠ .notWholeFrame := by
  cases hd : decodeCommand opc subop p with
  | error e => exact ⟨e, rfl, decodeCommand_ne_notWhole hd⟩
  | ok i =>
    rcases decodeCommand_ok hd with ⟨ho, hs, -⟩ | ⟨ho, hs, b, -, rfl⟩ | ⟨ho, hs, b, -, rfl⟩
      | ⟨ho, -⟩ | ⟨ho, -⟩
    · exact absurd ⟨ho, hs⟩ hset
    · exact absurd ⟨ho, hs, le16_eq_eight_iff.1 hlen.symm⟩ henc
    · exact absurd ⟨ho, hs, le16_eq_eight_iff.1 hlen.symm⟩ hdec
    · exact absurd ho hconf
    · exact absurd ho hconf

/-- Settles O7: each row's match and mask is a condition on the header bytes, under which the decoder's
answer is known. -/
theorem opcodeMapByMatchAndMask : Obligations.OpcodeMapByMatchAndMask := by
  intro opc subop lo hi payload hlen
  simp only [decode_cons hlen, ne_eq, meets_setKey_row_iff, meets_encryptBlock_row_iff,
    meets_decryptBlock_row_iff, meets_selectSbox_row_iff, meets_configure_row_iff]
  refine ⟨?setKey, ?encrypt, ?decrypt, ?select, ?configure, ?none⟩
  case setKey =>
    rintro ⟨rfl, rfl⟩
    exact decodeCommand_setKey payload
  case encrypt =>
    rintro ⟨rfl, rfl, hlo⟩
    rw [decodeCommand_encrypt]
    exact decodeBlock_of_length_eight _ (hlen.trans (le16_eq_eight_iff.2 hlo))
  case decrypt =>
    rintro ⟨rfl, rfl, hlo⟩
    rw [decodeCommand_decrypt]
    exact decodeBlock_of_length_eight _ (hlen.trans (le16_eq_eight_iff.2 hlo))
  case select =>
    rintro ⟨rfl, rfl⟩
    exact decodeCommand_select payload
  case configure =>
    rintro hsel rfl
    exact decodeCommand_configure (fun hs => hsel ⟨rfl, hs⟩) payload
  case none =>
    exact decodeCommand_error_of_no_row hlen

end Sys2Proof
end

section
/-! Key decoding, 42_key_schedule.md R141: subkey `i` is the little-endian word of the key's bytes
`[4i, 4i+4)`. -/

namespace Sys2Proof.Machine

/-- `set_key`'s arm of the dispatch. -/
theorem exec_setKey (key : ByteString) (s : State) : exec (.setKey key) s = execSetKey key s := rfl

/-- A word assembled from `PBUF` has the byte at the lowest index in its lowest bits (R57). -/
theorem wordAt_bytes (buf : ByteString) (n : Nat) (h : n + 4 ≤ buf.length) :
    (wordAt buf n h).extractLsb' 0 8 = buf[n]
    ∧ (wordAt buf n h).extractLsb' 8 8 = buf[n + 1]
    ∧ (wordAt buf n h).extractLsb' 16 8 = buf[n + 2]
    ∧ (wordAt buf n h).extractLsb' 24 8 = buf[n + 3] :=
  byteN_le32 buf[n] buf[n + 1] buf[n + 2] buf[n + 3]

/-- The eight subkeys, in order, are the eight words of the key. -/
theorem subkeysOf_get (key : ByteString) (h : key.length = 32) (i : Fin 8) :
    (subkeysOf key h).get i = wordAt key (4 * i.val) (by omega) := by
  match i with
  | 0 | 1 | 2 | 3 | 4 | 5 | 6 | 7 => rfl

/-- A key of the right length is accepted, and its subkeys stand in `K`. -/
theorem exec_setKey_k (s : State) (key : ByteString) (h : key.length = 32) :
    ∃ t, exec (.setKey key) s = .next t ∧ t.k = subkeysOf key h :=
  ⟨_, (exec_setKey key s).trans (execSetKey_of_length h s), by simp⟩

end Sys2Proof.Machine

namespace Sys2Proof

open Machine

/-- Settles O9: the accepted key's subkeys are its words in order, each with its four bytes in place. -/
theorem keyBytesFillSubkeysLittleEndian : Obligations.KeyBytesFillSubkeysLittleEndian := by
  intro s key h
  obtain ⟨t, hexec, hk⟩ := exec_setKey_k s key h
  refine ⟨t, hexec, fun i => ?_⟩
  rw [hk, subkeysOf_get key h i]
  exact wordAt_bytes key (4 * i.val) (by omega)

end Sys2Proof
end

section
/-! Load and store of the Feistel engine, 43_feistel_engine.md R152 and R155: the two words of a block and
the two registers, byte by byte. -/

namespace Sys2Proof.Machine

/-- Word0 of a block: its byte 0 is the least significant. -/
theorem wordAt_block_word0 (b : Block) (h : 0 + 4 ≤ b.bytes.length) :
    wordAt b.bytes 0 h = b.b3 ++ b.b2 ++ b.b1 ++ b.b0 :=
  le32_eq_append b.b0 b.b1 b.b2 b.b3

/-- Word1 of a block: its byte 4 is the least significant. -/
theorem wordAt_block_word1 (b : Block) (h : 4 + 4 ≤ b.bytes.length) :
    wordAt b.bytes 4 h = b.b7 ++ b.b6 ++ b.b5 ++ b.b4 :=
  le32_eq_append b.b4 b.b5 b.b6 b.b7

/-- Load of an accepted block as the whole next state, in either direction (R152). -/
theorem load_accepted_block (s : State) (dir : BitVec 1) (b : Block)
    (h : ((s.accept b.bytes).direct dir).pbuf.length = Config.blockBytes) :
    ((s.accept b.bytes).direct dir).load h =
      { s with pbuf := b.bytes, dir := dir, rc := 0,
               n1 := wordAt b.bytes 0 (by simp [Block.bytes]),
               n2 := wordAt b.bytes 4 (by simp [Block.bytes]) } := rfl

/-- The bytes of a word by their bit positions, least significant first (R11). -/
theorem le32Bytes_eq_extractLsb' (w : Word) :
    le32Bytes w =
      [w.extractLsb' 0 8, w.extractLsb' 8 8, w.extractLsb' 16 8, w.extractLsb' 24 8] := rfl

/-- Store as the whole next state: `N2` first (R155). -/
theorem store_eq (s : State) : s.store = { s with obuf := le32Bytes s.n2 ++ le32Bytes s.n1 } := rfl

end Sys2Proof.Machine

namespace Sys2Proof

open Machine

/-- Settles O23: load puts the block's two words in the registers, each the concatenation of its bytes. -/
theorem loadPutsWordsInRegisters : Obligations.LoadPutsWordsInRegisters := by
  intro s b dir h
  rw [load_accepted_block, wordAt_block_word0, wordAt_block_word1]

/-- Settles O24: store appends the bytes of `N1` to those of `N2`, and each word's bytes are known. -/
theorem storeSwapsTheRegisters : Obligations.StoreSwapsTheRegisters := by
  intro s
  rw [store_eq, le32Bytes_eq_extractLsb' s.n2, le32Bytes_eq_extractLsb' s.n1]
  simp only [List.cons_append, List.nil_append]

end Sys2Proof
end

section
/-! The registry search on the image of a table set, 44_configure.md R172. -/

namespace Sys2Proof

/-- The zero byte is no character of an OID (30_encoding.md R92). -/
theorem isOidChar_zero : Config.isOidChar 0x00#8 = false := by decide

/-- The part of R8's constraint on OIDs: each is a non-empty string of OID characters. -/
theorem SboxSet.oid_of_wf {set : SboxSet} (hwf : set.wf = true) {r : SboxRecord} (hr : r ∈ set) :
    r.oid ≠ [] ∧ ∀ c ∈ r.oid, Config.isOidChar c = true := by
  simp only [SboxSet.wf, Bool.and_eq_true] at hwf
  obtain ⟨-, hoids⟩ := hwf
  simpa using List.all_eq_true.1 hoids r hr

theorem SboxSet.zero_not_mem_oid {set : SboxSet} (hwf : set.wf = true) {r : SboxRecord} (hr : r ∈ set) :
    0x00#8 ∉ r.oid := by
  intro hzero
  obtain ⟨-, hchars⟩ := SboxSet.oid_of_wf hwf hr
  exact Bool.false_ne_true (isOidChar_zero.symm.trans (hchars _ hzero))

end Sys2Proof

namespace Sys2Proof.Machine

theorem lookup_rromImage_eq_some_iff {set : SboxSet} {oid : ByteString} {n : Nat} :
    lookup (rromImage set) oid = some n ↔
      ∃ h : n < set.length, set[n].oid = oid ∧ ∀ m (hm : m < n), set[m].oid ≠ oid := by
  simp only [lookup_rromImage, List.findIdx?_eq_some_iff_getElem, beq_iff_eq, ne_eq]

theorem lookup_rromImage_eq_none_iff {set : SboxSet} {oid : ByteString} :
    lookup (rromImage set) oid = none ↔ ∀ r ∈ set, r.oid ≠ oid := by
  simp only [lookup_rromImage, List.findIdx?_eq_none_iff, beq_eq_false_iff_ne]

/-- Every OID of a well-formed set is non-empty (00_scope.md R8). -/
theorem lookup_rromImage_nil {set : SboxSet} (hwf : set.wf = true) :
    lookup (rromImage set) [] = none := by
  rw [lookup_rromImage_eq_none_iff]
  intro r hr
  obtain ⟨hne, -⟩ := SboxSet.oid_of_wf hwf hr
  exact hne

/-- No OID of a well-formed set has a zero byte (30_encoding.md R92). -/
theorem lookup_rromImage_of_zero_mem {set : SboxSet} (hwf : set.wf = true) {oid : ByteString}
    (hzero : 0x00#8 ∈ oid) : lookup (rromImage set) oid = none := by
  rw [lookup_rromImage_eq_none_iff]
  rintro r hr rfl
  exact SboxSet.zero_not_mem_oid hwf hr hzero

end Sys2Proof.Machine

namespace Sys2Proof

open Machine

/-- Settles O34: the search is the library's first-index search on the set's records, and a well-formed
set has neither an empty OID nor one with a zero byte. -/
theorem lookupFindsTheFirstRecord : Obligations.LookupFindsTheFirstRecord := by
  intro set oid
  refine ⟨fun n => ?found, ?absent, fun hwf => ⟨?empty, ?zeroByte⟩⟩
  case found => exact lookup_rromImage_eq_some_iff
  case absent => exact lookup_rromImage_eq_none_iff
  case empty => exact lookup_rromImage_nil hwf
  case zeroByte => exact lookup_rromImage_of_zero_mem hwf

end Sys2Proof
end

section
/-! Errors, 60_exceptions.md R184: a frame is either raised as an error or answered with `OK`, so the status
in the response says which of the two happened. -/

namespace Sys2Proof.Machine

/-! ### What `raise` leaves -/

theorem raise_sameContext (s : State) (e : Status) : s.sameContext (s.raise e) := ⟨rfl, rfl, rfl, rfl⟩

theorem raise_idle (s : State) (e : Status) : (s.raise e).idle = true := rfl

/-- `STATUS` is the first byte of a response (30_encoding.md R83). -/
theorem rspFrame_getElem?_zero (st : Status) (payload : ByteString) :
    (rspFrame st payload)[0]? = some st.code := rfl

/-! ### Error or `OK` -/

/-- A command that goes on raised an error or answered `OK`. -/
theorem Ends.raise_or_ok {i : Instr} {s t : State} (h : Ends i s t) :
    (∃ e : Status, e ≠ .ok ∧ t = s.raise e)
      ∨ ∃ payload, t.outbox = s.outbox ++ [rspFrame .ok payload] := by
  cases h with
  | error e he hp => exact .inl ⟨e, he, hp⟩
  | keyed key h hi hp => exact .inr ⟨[], by simp [hp]⟩
  | selected oid n hn hi hp => exact .inr ⟨[], by simp [hp]⟩
  | block T dir b hi hk hT hp => exact .inr ⟨_, by rw [hp, processBlock_eq]⟩

/-- A frame that goes on raised an error, an illegal one included, or was answered with `OK`. -/
theorem runFrame_raise_or_ok {bytes : ByteString} {s t : State} (h : runFrame bytes s = .next t) :
    (∃ e : Status, e ≠ .ok ∧ t = s.raise e)
      ∨ ∃ payload, t.outbox = s.outbox ++ [rspFrame .ok payload] := by
  obtain ⟨i, hdecode, hexec⟩ | ⟨_, -, -, ht⟩ := runFrame_next h
  · exact (exec_next (decode_ok_wf hdecode) hexec).raise_or_ok
  · exact .inl ⟨.illegalCommand, by decide, ht⟩

end Sys2Proof.Machine

namespace Sys2Proof

open Machine

/-- Settles O38: a frame answered `OK` has the status byte zero, so any other status was raised, and the
rules of `raise` give the rest. -/
theorem errorsLeaveTheContext : Obligations.ErrorsLeaveTheContext := by
  intro bytes r s t hrun hout hstatus
  obtain ⟨e, he, rfl⟩ | ⟨payload, hok⟩ := runFrame_raise_or_ok hrun
  case inl =>
    have hr : r = rspFrame e [] := by simpa using hout.symm
    exact ⟨raise_sameContext s e, raise_idle s e, s.raise_srom e, s.raise_rrom e, s.raise_inbox e,
      e, he, hr.trans (rspFrame_nil e)⟩
  case inr =>
    have hr : r = rspFrame .ok payload := by simpa [hok] using hout.symm
    rw [hr, rspFrame_getElem?_zero] at hstatus
    exact absurd rfl hstatus

end Sys2Proof
end

section
/-! The decoder against the encoder, 30_encoding.md R84, R88 and R89: each undoes the other on the frames of
commands, and the frames that are no command are those with an illegal header. -/

namespace Sys2Proof

/-! ### Decoding an encoded command -/

/-- The payload of an encoded block command is its block. -/
@[simp] theorem decodeBlock_bytes (c : Block → Instr) (b : Block) : decodeBlock c b.bytes = .ok (c b) := by
  simp [decodeBlock]

theorem length_block_le_maxPayload (b : Block) : b.bytes.length ≤ maxPayload := by
  simp [maxPayload]

theorem configUnsupported_wf_iff {op : Byte} {payload : ByteString} :
    (Instr.configUnsupported op payload).wf = true ↔ op ≠ subopSelect ∧ payload.length ≤ maxPayload := by
  simp [Instr.wf]

/-- Settles O5: the frame of each command has a right `LEN`, and its header is that command's row of the
opcode map. -/
theorem decodeInvertsEncode : Obligations.DecodeInvertsEncode := by
  intro i hwf
  cases i with
  | setKey key =>
    have hlen : key.length ≤ maxPayload := by simpa [Instr.wf] using hwf
    exact (decode_cmdFrame hlen).trans (decodeCommand_setKey key)
  | encryptBlock b =>
    refine (decode_cmdFrame (length_block_le_maxPayload b)).trans ?_
    rw [decodeCommand_encrypt, decodeBlock_bytes]
  | decryptBlock b =>
    refine (decode_cmdFrame (length_block_le_maxPayload b)).trans ?_
    rw [decodeCommand_decrypt, decodeBlock_bytes]
  | selectSbox oid =>
    have hlen : oid.length ≤ maxPayload := by simpa [Instr.wf] using hwf
    exact (decode_cmdFrame hlen).trans (decodeCommand_select oid)
  | configUnsupported op payload =>
    obtain ⟨hop, hlen⟩ := configUnsupported_wf_iff.1 hwf
    exact (decode_cmdFrame hlen).trans (decodeCommand_configure hop payload)

/-! ### Encoding a decoded command -/

/-- What decodes is a frame, of the command's own encoding. -/
theorem encode_of_decode {bytes : ByteString} {i : Instr} (h : decode bytes = .ok i) : encode i = bytes := by
  cases hw : wholeFrame bytes with
  | false => simp [decode_not_whole hw] at h
  | true =>
    obtain ⟨opc, subop, lo, hi, p, rfl, hlen⟩ := wholeFrame_iff.1 hw
    rw [decode_cons hlen] at h
    rw [← cmdFrame_of_fields hlen]
    rcases decodeCommand_ok h with ⟨rfl, rfl, rfl⟩ | ⟨rfl, rfl, b, rfl, rfl⟩ | ⟨rfl, rfl, b, rfl, rfl⟩
      | ⟨rfl, rfl, rfl⟩ | ⟨rfl, -, rfl⟩
    all_goals rfl

/-- Settles O6: a decoded frame is the encoding of its well-formed command. -/
theorem encodeInvertsDecode : Obligations.EncodeInvertsDecode := by
  intro bytes i h
  exact ⟨decode_ok_wf h, encode_of_decode h⟩

/-- Settles O8: each frame is written out, so the decoder evaluates on it. -/
theorem sampleFramesDecode : Obligations.SampleFramesDecode :=
  ⟨rfl, rfl, rfl, rfl, rfl, rfl⟩

/-! ### Illegal headers (R88) -/

/-- The opcodes that R84 gives no command. -/
theorem unknownOpc_iff {opc : Byte} :
    (opc = 0x00#8 ∨ 0x05#8 ≤ opc) ↔
      opc ≠ opcConfigure ∧ opc ≠ opcSetKey ∧ opc ≠ opcEncrypt ∧ opc ≠ opcDecrypt := by
  simp only [opcConfigure, opcSetKey, opcEncrypt, opcDecrypt]
  bv_omega

end Sys2Proof

namespace Sys2Proof.Machine

/-- The headers of commands, by `OPC`. -/
theorem not_illegalHeader_iff {opc subop : Byte} {len : Nat} :
    ¬ illegalHeader opc subop len ↔
      opc = opcConfigure ∨ (opc = opcSetKey ∧ subop = 0x00#8)
        ∨ ((opc = opcEncrypt ∨ opc = opcDecrypt) ∧ subop = 0x00#8 ∧ len = 8) := by
  rw [illegalHeader, unknownOpc_iff]
  by_cases hc : opc = opcConfigure
  · subst hc
    simp [opcConfigure]
  by_cases hk : opc = opcSetKey
  · subst hk
    simp [opcSetKey, opcConfigure, opcEncrypt, opcDecrypt]
  by_cases he : opc = opcEncrypt
  · subst he
    simp [opcSetKey, opcConfigure, opcEncrypt, opcDecrypt]
  by_cases hd : opc = opcDecrypt
  · subst hd
    simp [opcSetKey, opcConfigure, opcEncrypt, opcDecrypt]
  simp [hc, hk, he, hd]

/-- A legal header and its payload are a command. -/
theorem decodeCommand_of_legal {opc subop : Byte} {p : ByteString}
    (h : ¬ illegalHeader opc subop p.length) : ∃ i, decodeCommand opc subop p = .ok i := by
  rcases not_illegalHeader_iff.1 h with rfl | ⟨rfl, rfl⟩ | ⟨rfl | rfl, rfl, hlen⟩
  · by_cases hs : subop = subopSelect
    · subst hs
      exact ⟨_, decodeCommand_select p⟩
    · exact ⟨_, decodeCommand_configure hs p⟩
  · exact ⟨_, decodeCommand_setKey p⟩
  · obtain ⟨b, -, hb⟩ := decodeBlock_of_length_eight .encryptBlock hlen
    exact ⟨_, (decodeCommand_encrypt p).trans hb⟩
  · obtain ⟨b, -, hb⟩ := decodeBlock_of_length_eight .decryptBlock hlen
    exact ⟨_, (decodeCommand_decrypt p).trans hb⟩

/-- The decoder rejects an illegal header by one of R88's cases. -/
theorem decodeCommand_of_illegal {opc subop : Byte} {p : ByteString}
    (h : illegalHeader opc subop p.length) :
    ∃ e, decodeCommand opc subop p = .error e ∧ e ≠ .notWholeFrame := by
  cases hd : decodeCommand opc subop p with
  | error e => exact ⟨e, rfl, decodeCommand_ne_notWhole hd⟩
  | ok i =>
    refine absurd h (not_illegalHeader_iff.2 ?_)
    rcases decodeCommand_ok hd with ⟨ho, hs, -⟩ | ⟨ho, hs, b, -, rfl⟩ | ⟨ho, hs, b, -, rfl⟩
      | ⟨ho, -⟩ | ⟨ho, -⟩
    · exact .inr (.inl ⟨ho, hs⟩)
    · exact .inr (.inr ⟨.inl ho, hs, b.length_bytes⟩)
    · exact .inr (.inr ⟨.inr ho, hs, b.length_bytes⟩)
    · exact .inl ho
    · exact .inl ho

/-! ### The step on a frame -/

theorem step_of_frame {s : State} {bytes : ByteString} {rest : List HostInput}
    (h : s.inbox = .frame bytes :: rest) : step s = runFrame bytes { s with inbox := rest } := by
  simp [step, h]

theorem runFrame_of_ok {bytes : ByteString} {i : Instr} (h : decode bytes = .ok i) (s : State) :
    runFrame bytes s = exec i s := by
  simp [runFrame, h]

/-- An illegal frame is raised as `IllegalCommand`. -/
theorem runFrame_of_illegal {opc subop lo hi : Byte} {p : ByteString} (hlen : p.length = le16 lo hi)
    (h : illegalHeader opc subop p.length) (s : State) :
    runFrame (opc :: subop :: lo :: hi :: p) s = .next (s.raise .illegalCommand) := by
  obtain ⟨e, he, hne⟩ := decodeCommand_of_illegal h
  simp only [runFrame, decode_cons hlen, he, rejectFrame_of_whole hne]

end Sys2Proof.Machine

namespace Sys2Proof

open Machine

/-- Settles O1: the step runs the frame, and the frame's meaning is that of its command. -/
theorem stepRunsTheDecodedCommand : Obligations.StepRunsTheDecodedCommand := by
  intro s bytes rest i hinbox hdecode
  exact ⟨decode_ok_wf hdecode, (step_of_frame hinbox).trans (runFrame_of_ok hdecode _)⟩

/-- Settles O3: an illegal frame raises `IllegalCommand`, which on an idle engine changes only the responses;
any other header decodes. -/
theorem illegalFramesChangeNothing : Obligations.IllegalFramesChangeNothing := by
  intro s opc subop lo hi payload rest hidle hlen hinbox
  rw [step_of_frame hinbox]
  constructor
  · intro hillegal
    rw [runFrame_of_illegal hlen hillegal, raise_of_idle (s := { s with inbox := rest }) hidle]
    rfl
  · intro hlegal
    obtain ⟨i, hi⟩ := decodeCommand_of_legal hlegal
    have hdecode := (decode_cons hlen).trans hi
    exact ⟨i, decode_ok_wf hdecode, runFrame_of_ok hdecode _⟩

/-- Settles O4: the first two frames have illegal headers, whatever the state; the third decodes to an
unsupported `configure`. -/
theorem frameChecksComeFirst : Obligations.FrameChecksComeFirst := by
  refine ⟨?blockLen, ?straySubop, ?configure⟩
  case blockLen =>
    intro s opc lo hi payload rest hopc hlen hne _ hinbox
    have hillegal : illegalHeader opc 0x00#8 payload.length := .inr (.inr ⟨hopc, hne⟩)
    exact ⟨_, (step_of_frame hinbox).trans (runFrame_of_illegal hlen hillegal _), rfl⟩
  case straySubop =>
    intro s subop lo hi key rest hsubop hlen hinbox
    have hillegal : illegalHeader 0x01#8 subop key.length := .inr (.inl ⟨.inl rfl, hsubop⟩)
    exact ⟨_, (step_of_frame hinbox).trans (runFrame_of_illegal hlen hillegal _), rfl⟩
  case configure =>
    intro s op lo hi payload rest hop hlen hinbox
    have hdecode : decode (0x04#8 :: op :: lo :: hi :: payload) = .ok (.configUnsupported op payload) :=
      (decode_cons hlen).trans (decodeCommand_configure hop payload)
    rw [step_of_frame hinbox, runFrame_of_ok hdecode]
    exact ⟨_, execConfigUnsupported_of_ne hop payload _, rfl⟩

end Sys2Proof
end

section
/-! The commands in one normal form. A command first decides its effect from the state it finds, and writes
nothing while it decides; then the effect is carried out. `exec_eq` ties the form to `exec`, and what a
command depends on and what it changes are read off the two halves. -/

namespace Sys2Proof.Machine

/-- What a command has decided to do. -/
inductive Effect where
  /-- An error is raised (60_exceptions.md R184). -/
  | error (e : Status)
  /-- A key is accepted (42_key_schedule.md R140). -/
  | key (ks : Subkeys)
  /-- A table is selected (44_configure.md R171). -/
  | select (n : Nat)
  /-- A block goes through the cipher (43_feistel_engine.md R150, R151). -/
  | cipher (pairs : List (Fin 8 × Fin 8)) (T : Fin 4 → Byte → Word) (b : Block)

/-- The status an effect is answered with. -/
def Effect.status : Effect → Status
  | .error e => e
  | .key _ => .ok
  | .select _ => .ok
  | .cipher _ _ _ => .ok

/-- The payload an effect is answered with on an engine whose subkeys are `ks`. -/
def Effect.payload (ks : Subkeys) : Effect → ByteString
  | .error _ => []
  | .key _ => []
  | .select _ => []
  | .cipher pairs T b => cipherBlock pairs T ks b

/-- The decision of a block command; none on a keyed engine without an active table (log entry 7). -/
def State.blockEffect (s : State) (pairs : List (Fin 8 × Fin 8)) (b : Block) : Option Effect :=
  if s.keyValid then s.activeTable.map (fun T => .cipher pairs T b) else some (.error .noKey)

/-- The decision of a selection. -/
def State.selectEffect (s : State) (oid : ByteString) : Effect :=
  (lookup s.rrom oid).elim (.error .sboxNotFound) .select

/-- The decision of a command. -/
def State.effect (s : State) : Instr → Option Effect
  | .setKey key =>
    some (if h : key.length = Config.keyBytes then .key (subkeysOf key h) else .error .invalidKeyLength)
  | .encryptBlock b => s.blockEffect encryptPairs b
  | .decryptBlock b => s.blockEffect decryptPairs b
  | .selectSbox oid => some (s.selectEffect oid)
  | .configUnsupported op payload =>
    some (if op = subopSelect then s.selectEffect payload else .error .unsupportedOperation)

/-- The state after an effect. -/
def State.after (s : State) : Effect → State
  | .error e => s.raise e
  | .key ks => { s with
      k := ks, keyValid := true
      tsel := if s.tselValid then s.tsel else defaultTable s.rrom, tselValid := true
      pbuf := [], obuf := [], outbox := s.outbox ++ [rspFrame .ok []] }
  | .select n => { s with
      tsel := n, tselValid := true
      pbuf := [], obuf := [], outbox := s.outbox ++ [rspFrame .ok []] }
  | .cipher pairs T b => { s with
      n1 := 0, n2 := 0, rc := 0, dir := 0
      pbuf := [], obuf := [], outbox := s.outbox ++ [rspFrame .ok (cipherBlock pairs T s.k b)] }

/-! ### The form is that of `exec` -/

theorem blockCommand_eq (s : State) (dir : BitVec 1) (b : Block) :
    blockCommand dir b s =
      (s.blockEffect (schedulePairs dir) b).elim (.fault .noActiveTable) (fun e => .next (s.after e)) := by
  cases hk : s.keyValid with
  | false => simp [blockCommand_of_no_key hk, State.blockEffect, hk, State.after]
  | true =>
    cases hT : s.activeTable with
    | none => simp [blockCommand_of_no_table hk hT, State.blockEffect, hk, hT]
    | some T =>
      simp [blockCommand_of_table hk hT, processBlock_eq, State.blockEffect, hk, hT, State.after]

theorem execSelectSbox_eq (s : State) (oid : ByteString) :
    execSelectSbox oid s = .next (s.after (s.selectEffect oid)) := by
  cases hn : lookup s.rrom oid with
  | none => simp [execSelectSbox_of_not_found hn, State.selectEffect, hn, State.after]
  | some n =>
    rw [execSelectSbox_of_found hn, State.selectEffect, hn]
    rfl

/-- Every command decides its effect and carries it out; a command without an effect faults. -/
theorem exec_eq (i : Instr) (s : State) :
    exec i s = (s.effect i).elim (.fault .noActiveTable) (fun e => .next (s.after e)) := by
  cases i with
  | setKey key =>
    by_cases h : key.length = Config.keyBytes
    · simp only [exec_setKey, execSetKey_of_length h, keyed_state, State.effect, h, dite_true]
      rfl
    · simp only [exec_setKey, execSetKey_of_length_ne h, State.effect, h, dite_false]
      rfl
  | encryptBlock b =>
    rw [State.effect, ← schedulePairs_encrypt]
    exact blockCommand_eq s 0 b
  | decryptBlock b =>
    rw [State.effect, ← schedulePairs_decrypt]
    exact blockCommand_eq s 1 b
  | selectSbox oid => exact execSelectSbox_eq s oid
  | configUnsupported op payload =>
    by_cases h : op = subopSelect
    · subst h
      exact execSelectSbox_eq s payload
    · simp only [State.effect, h, if_false]
      exact execConfigUnsupported_of_ne h payload s

theorem exec_of_effect {i : Instr} {s : State} {e : Effect} (h : s.effect i = some e) :
    exec i s = .next (s.after e) := by
  rw [exec_eq, h]
  rfl

/-- A command goes on exactly when it has an effect. -/
theorem exec_eq_next_iff {i : Instr} {s t : State} :
    exec i s = .next t ↔ ∃ e, s.effect i = some e ∧ t = s.after e := by
  rw [exec_eq]
  cases s.effect i <;> simp [eq_comm]

/-! ### What a decision depends on -/

theorem effect_setKey {key : ByteString} (h : key.length = 32) (s : State) :
    s.effect (.setKey key) = some (.key (subkeysOf key h)) := by
  have h' : key.length = Config.keyBytes := h
  simp [State.effect, h']

theorem effect_setKey_of_length_ne {key : ByteString} (h : key.length ≠ 32) (s : State) :
    s.effect (.setKey key) = some (.error .invalidKeyLength) := by
  have h' : key.length ≠ Config.keyBytes := h
  simp [State.effect, h']

theorem effect_select {s : State} {oid : ByteString} {n : Nat} (h : lookup s.rrom oid = some n) :
    s.effect (.selectSbox oid) = some (.select n) := by
  simp [State.effect, State.selectEffect, h]

theorem effect_select_of_not_found {s : State} {oid : ByteString} (h : lookup s.rrom oid = none) :
    s.effect (.selectSbox oid) = some (.error .sboxNotFound) := by
  simp [State.effect, State.selectEffect, h]

theorem effect_configUnsupported {op : Byte} (h : op ≠ subopSelect) (payload : ByteString) (s : State) :
    s.effect (.configUnsupported op payload) = some (.error .unsupportedOperation) := by
  simp [State.effect, h]

theorem blockEffect_of_reads {s : State} {T : Fin 4 → Byte → Word} (hk : s.keyValid = true) (hT : s.reads T)
    (pairs : List (Fin 8 × Fin 8)) (b : Block) : s.blockEffect pairs b = some (.cipher pairs T b) := by
  simp [State.blockEffect, hk, activeTable_of_reads hT]

theorem blockEffect_of_no_key {s : State} (hk : s.keyValid = false) (pairs : List (Fin 8 × Fin 8))
    (b : Block) : s.blockEffect pairs b = some (.error .noKey) := by
  simp [State.blockEffect, hk]

/-- A block command decides by its pairs and its block, in every state. -/
theorem effect_of_isBlock {i : Instr} (h : i.isBlock = true) :
    ∃ pairs b, ∀ s : State, s.effect i = s.blockEffect pairs b := by
  cases i with
  | encryptBlock b => exact ⟨encryptPairs, b, fun _ => rfl⟩
  | decryptBlock b => exact ⟨decryptPairs, b, fun _ => rfl⟩
  | setKey _ => simp [Instr.isBlock] at h
  | selectSbox _ => simp [Instr.isBlock] at h
  | configUnsupported _ _ => simp [Instr.isBlock] at h

/-- A command that is no block command decides by its payload and the registry alone. -/
theorem effect_of_not_isBlock {i : Instr} (h : i.isBlock = false) {s t : State} (hr : t.rrom = s.rrom) :
    t.effect i = s.effect i := by
  cases i with
  | setKey _ => rfl
  | selectSbox _ => simp [State.effect, State.selectEffect, hr]
  | configUnsupported _ _ => simp [State.effect, State.selectEffect, hr]
  | encryptBlock _ => simp [Instr.isBlock] at h
  | decryptBlock _ => simp [Instr.isBlock] at h

/-- A decision reads `KEY_VALID`, the active table and the registry. -/
theorem effect_congr {s t : State} (hk : t.keyValid = s.keyValid) (hT : t.activeTable = s.activeTable)
    (hr : t.rrom = s.rrom) (i : Instr) : t.effect i = s.effect i := by
  cases hb : i.isBlock with
  | false => exact effect_of_not_isBlock hb hr
  | true =>
    obtain ⟨pairs, b, he⟩ := effect_of_isBlock hb
    simp only [he, State.blockEffect, hk, hT]

/-! ### Which decisions a command can make -/

/-- The decisions of a command: what each says of the command and of the state, with the statuses of R182. -/
inductive Decides (s : State) (i : Instr) : Effect → Prop where
  | error (e : Status) (he : e ≠ .ok) (hmem : i.wf = true → e ∈ i.possible) : Decides s i (.error e)
  | key (ks : Subkeys) (hblock : i.isBlock = false) (hmem : .ok ∈ i.possible) : Decides s i (.key ks)
  | select (n : Nat) (oid : ByteString) (hn : lookup s.rrom oid = some n) (hblock : i.isBlock = false)
      (hmem : i.wf = true → .ok ∈ i.possible) : Decides s i (.select n)
  | cipher (pairs : List (Fin 8 × Fin 8)) (T : Fin 4 → Byte → Word) (b : Block) (hk : s.keyValid = true)
      (hblock : i.isBlock = true) (hmem : .ok ∈ i.possible) : Decides s i (.cipher pairs T b)

theorem possible_of_isBlock {i : Instr} (h : i.isBlock = true) : i.possible = [.ok, .noKey] := by
  cases i with
  | encryptBlock b => rfl
  | decryptBlock b => rfl
  | setKey _ => simp [Instr.isBlock] at h
  | selectSbox _ => simp [Instr.isBlock] at h
  | configUnsupported _ _ => simp [Instr.isBlock] at h

theorem blockEffect_decides {i : Instr} {s : State} {pairs : List (Fin 8 × Fin 8)} {b : Block} {e : Effect}
    (hblock : i.isBlock = true) (h : s.blockEffect pairs b = some e) : Decides s i e := by
  have hpossible := possible_of_isBlock hblock
  cases hk : s.keyValid with
  | false =>
    obtain rfl : .error .noKey = e := by simpa [blockEffect_of_no_key hk] using h
    exact .error .noKey (by decide) (by simp [hpossible])
  | true =>
    obtain ⟨T, -, rfl⟩ : ∃ T, s.activeTable = some T ∧ .cipher pairs T b = e := by
      simpa [State.blockEffect, hk] using h
    exact .cipher pairs T b hk hblock (by simp [hpossible])

theorem selectEffect_decides {i : Instr} (hblock : i.isBlock = false)
    (hpossible : i.wf = true → i.possible = [.ok, .sboxNotFound]) (s : State) (oid : ByteString) :
    Decides s i (s.selectEffect oid) := by
  cases hn : lookup s.rrom oid with
  | none =>
    rw [State.selectEffect, hn]
    exact .error .sboxNotFound (by decide) (fun hwf => by simp [hpossible hwf])
  | some n =>
    rw [State.selectEffect, hn]
    exact .select n oid hn hblock (fun hwf => by simp [hpossible hwf])

theorem effect_decides {i : Instr} {s : State} {e : Effect} (h : s.effect i = some e) : Decides s i e := by
  cases i with
  | setKey key =>
    by_cases hlen : key.length = 32
    · obtain rfl := Option.some.inj ((effect_setKey hlen s).symm.trans h)
      exact .key _ rfl (by simp [Instr.possible])
    · obtain rfl := Option.some.inj ((effect_setKey_of_length_ne hlen s).symm.trans h)
      exact .error _ (by decide) (by simp [Instr.possible])
  | encryptBlock b => exact blockEffect_decides rfl h
  | decryptBlock b => exact blockEffect_decides rfl h
  | selectSbox oid =>
    obtain rfl := Option.some.inj h
    exact selectEffect_decides rfl (fun _ => rfl) s oid
  | configUnsupported op payload =>
    by_cases hop : op = subopSelect
    · subst hop
      obtain rfl := Option.some.inj h
      exact selectEffect_decides rfl (by simp [Instr.wf]) s payload
    · obtain rfl := Option.some.inj ((effect_configUnsupported hop payload s).symm.trans h)
      exact .error _ (by decide) (by simp [Instr.possible])

/-! ### What an effect changes -/

/-- Every effect is answered once (60_exceptions.md R196). -/
@[simp] theorem after_outbox (s : State) (e : Effect) :
    (s.after e).outbox = s.outbox ++ [rspFrame e.status (e.payload s.k)] := by
  cases e <;> rfl

@[simp] theorem after_inbox (s : State) (e : Effect) : (s.after e).inbox = s.inbox := by
  cases e <;> rfl

@[simp] theorem after_srom (s : State) (e : Effect) : (s.after e).srom = s.srom := by
  cases e <;> rfl

@[simp] theorem after_rrom (s : State) (e : Effect) : (s.after e).rrom = s.rrom := by
  cases e <;> rfl

/-- The whole next state of an error, and what it is on an idle engine (log entry 15). -/
theorem exec_of_error {i : Instr} {s : State} {e : Status} (h : s.effect i = some (.error e)) :
    exec i s = .next { s with
      n1 := 0, n2 := 0, rc := 0, dir := 0, pbuf := [], obuf := []
      outbox := s.outbox ++ [[e.code, 0x00#8, 0x00#8, 0x00#8]] }
    ∧ (s.idle = true → exec i s =
        .next { s with outbox := s.outbox ++ [[e.code, 0x00#8, 0x00#8, 0x00#8]] }) := by
  have hexec : exec i s = .next (s.raise e) := exec_of_effect h
  exact ⟨hexec, fun hidle => hexec.trans (congrArg _ (raise_of_idle hidle e))⟩

end Sys2Proof.Machine
end

section
/-! `set_key` and `configure`: their whole next states, and the orders in which a key and a selection may
come (42_key_schedule.md, 44_configure.md, 70_reset_and_hazards.md R216). -/

namespace Sys2Proof

open Machine

/-! ### Each command's next state -/

/-- Settles O10: the state after an accepted key. -/
theorem setKeyWritesTheContext : Obligations.SetKeyWritesTheContext := by
  intro s key h
  exact exec_of_effect (effect_setKey h s)

/-- Settles O11: another length decides for the error. -/
theorem wrongKeyLengthKeepsTheContext : Obligations.WrongKeyLengthKeepsTheContext := by
  intro s key h
  exact exec_of_error (effect_setKey_of_length_ne h s)

/-- Settles O35: another `SUBOP` decides for the error, whatever the payload. -/
theorem otherConfigureIsUnsupported : Obligations.OtherConfigureIsUnsupported := by
  intro s op payload h
  exact exec_of_error (effect_configUnsupported h payload s)

/-- A block command after an error answers what it would have answered before. -/
theorem exec_after_raise {i : Instr} {s u : State} (h : exec i s = .next u) (e : Status) :
    ∃ r v, u.outbox = s.outbox ++ [r] ∧ exec i (s.raise e) = .next v
      ∧ v.outbox = (s.raise e).outbox ++ [r] := by
  obtain ⟨eff, heff, rfl⟩ := exec_eq_next_iff.1 h
  have hraise : (s.raise e).effect i = some eff :=
    (effect_congr rfl (activeTable_congr rfl rfl rfl) rfl i).trans heff
  exact ⟨_, _, after_outbox s eff, exec_of_effect hraise, after_outbox (s.raise e) eff⟩

/-- Settles O33: the search decides; an error leaves what a later command decides by and reads. -/
theorem selectSboxReplacesTheTableOrKeepsIt : Obligations.SelectSboxReplacesTheTableOrKeepsIt := by
  refine ⟨?found, ?unknown, ?later, rfl⟩
  case found =>
    intro s oid n h
    exact exec_of_effect (effect_select h)
  case unknown =>
    intro s oid h
    exact exec_of_error (effect_select_of_not_found h)
  case later =>
    intro s t u oid b h ht hu
    have hraise : exec (.selectSbox oid) s = .next (s.raise .sboxNotFound) :=
      exec_of_effect (effect_select_of_not_found h)
    obtain rfl : s.raise .sboxNotFound = t := by simpa [hraise] using ht
    exact exec_after_raise hu .sboxNotFound

/-! ### Keys and selections in a row -/

/-- Settles O12: an accepted key overwrites the whole of `K`, and the table is chosen once. -/
theorem rekeyingReplacesTheKey : Obligations.RekeyingReplacesTheKey := by
  intro s key key' h h'
  refine ⟨_, _, _, exec_of_effect (effect_setKey h s), exec_of_effect (effect_setKey h' _),
    exec_of_effect (effect_setKey h' s), rfl, ?_⟩
  rintro rfl
  rfl

/-- Settles O36: the key leaves a chosen table, and the selection leaves the key. -/
theorem keyAndSelectionCommute : Obligations.KeyAndSelectionCommute := by
  intro s key oid n h hn
  have hcomm : (s.after (.key (subkeysOf key h))).after (.select n) =
      (s.after (.select n)).after (.key (subkeysOf key h)) := rfl
  refine ⟨_, _, _, exec_of_effect (effect_select hn), exec_of_effect (effect_setKey h _),
    exec_of_effect (effect_setKey h s), ?_⟩
  rw [← hcomm]
  exact exec_of_effect (effect_select hn)

/-! ### The default table -/

/-- Where OIDs are distinct, the OID of a record leads to that record. -/
theorem lookup_of_nodup {set : SboxSet} (hnodup : (set.map (fun r => r.oid)).Nodup) {n : Nat}
    (hn : n < set.length) : lookup (rromImage set) set[n].oid = some n := by
  refine lookup_rromImage_eq_some_iff.2 ⟨hn, rfl, fun m hm heq => ?_⟩
  have hmn := (hnodup.getElem_inj_iff (i := m) (j := n) (hi := by simp; omega) (hj := by simpa using hn)).1
    (by simpa using heq)
  omega

/-- The record named "test" stands at the default table's index (00_scope.md R8). -/
theorem oidTest_eq_some {set : SboxSet} {oid : ByteString} (h : set.oidTest = some oid) :
    ∃ hn : defaultTable (rromImage set) < set.length, set[defaultTable (rromImage set)].oid = oid := by
  simp only [SboxSet.oidTest, Option.map_eq_some_iff] at h
  obtain ⟨r, hfind, rfl⟩ := h
  rw [List.find?_eq_getElem?_findIdx, ← defaultTable_rromImage, List.getElem?_eq_some_iff] at hfind
  obtain ⟨hn, rfl⟩ := hfind
  exact ⟨hn, rfl⟩

/-- Settles O37: the test record's OID leads to its own index, and selecting the table that a key would
choose changes only the responses. -/
theorem defaultTableIsTheTestOid : Obligations.DefaultTableIsTheTestOid := by
  refine ⟨?lookup, ?states⟩
  case lookup =>
    intro set oid hnodup htest
    obtain ⟨hn, rfl⟩ := oidTest_eq_some htest
    exact lookup_of_nodup hnodup hn
  case states =>
    intro s key oid h hv hn
    refine ⟨_, _, _, _, exec_of_effect (effect_setKey h s), exec_of_effect (effect_select hn),
      exec_of_effect (effect_setKey h _), exec_of_effect (effect_select hn), ?_, ?_⟩
    · simp [State.after, hv]
    · simp [State.after, hv]

end Sys2Proof
end

section
/-! The block commands (43_feistel_engine.md): the cipher over the pair lists, its inverse, what a response
depends on, and the count of round applications. -/

namespace Sys2Proof.Machine

/-! ### What a block command answers -/

/-- The response of a processed block (30_encoding.md R83). -/
theorem rspFrame_cipherBlock (pairs : List (Fin 8 × Fin 8)) (T : Fin 4 → Byte → Word) (ks : Subkeys)
    (b : Block) :
    rspFrame .ok (cipherBlock pairs T ks b) = [0x00#8, 0x00#8, 0x08#8, 0x00#8] ++ cipherBlock pairs T ks b :=
  rspFrame_block .ok _ _

section
variable {s : State} {T : Fin 4 → Byte → Word} (hk : s.keyValid = true) (hT : s.reads T) (b : Block)
include hk hT

theorem exec_encrypt_of_reads :
    exec (.encryptBlock b) s = .next (s.after (.cipher encryptPairs T b)) :=
  exec_of_effect (blockEffect_of_reads hk hT encryptPairs b)

theorem exec_decrypt_of_reads :
    exec (.decryptBlock b) s = .next (s.after (.cipher decryptPairs T b)) :=
  exec_of_effect (blockEffect_of_reads hk hT decryptPairs b)

end

/-! ### The cipher undone (R156) -/

/-- The block whose two words are given. -/
def blockOfWords (w0 w1 : Word) : Block :=
  ⟨byteN 0 w0, byteN 1 w0, byteN 2 w0, byteN 3 w0, byteN 0 w1, byteN 1 w1, byteN 2 w1, byteN 3 w1⟩

/-- The registers after load. -/
def loadedWords (b : Block) : Word × Word := (le32 b.b0 b.b1 b.b2 b.b3, le32 b.b4 b.b5 b.b6 b.b7)

theorem loadedWords_blockOfWords (w0 w1 : Word) : loadedWords (blockOfWords w0 w1) = (w0, w1) := by
  simp [loadedWords, blockOfWords, le32_byteN]

theorem blockOfWords_loadedWords (b : Block) :
    blockOfWords (loadedWords b).1 (loadedWords b).2 = b := by
  obtain ⟨h0, h1, h2, h3⟩ := byteN_le32 b.b0 b.b1 b.b2 b.b3
  obtain ⟨h4, h5, h6, h7⟩ := byteN_le32 b.b4 b.b5 b.b6 b.b7
  simp [loadedWords, blockOfWords, h0, h1, h2, h3, h4, h5, h6, h7]

/-- The cipher over a list of pairs, as a map of blocks: the registers are stored exchanged (R155). -/
def cipher (pairs : List (Fin 8 × Fin 8)) (T : Fin 4 → Byte → Word) (ks : Subkeys) (b : Block) : Block :=
  let n := (pairs.foldl (pairStep T ks) (loadedWords b)).swap
  blockOfWords n.1 n.2

theorem cipherBlock_eq (pairs : List (Fin 8 × Fin 8)) (T : Fin 4 → Byte → Word) (ks : Subkeys)
    (b : Block) : cipherBlock pairs T ks b = (cipher pairs T ks b).bytes := rfl

theorem loadedWords_cipher (pairs : List (Fin 8 × Fin 8)) (T : Fin 4 → Byte → Word) (ks : Subkeys)
    (b : Block) :
    loadedWords (cipher pairs T ks b) = (pairs.foldl (pairStep T ks) (loadedWords b)).swap :=
  loadedWords_blockOfWords _ _

/-- The pairs in reverse order, each exchanged, undo the cipher. -/
theorem cipher_undo (pairs : List (Fin 8 × Fin 8)) (T : Fin 4 → Byte → Word) (ks : Subkeys) (b : Block) :
    cipher (pairs.reverse.map Prod.swap) T ks (cipher pairs T ks b) = b := by
  rw [cipher, loadedWords_cipher, pairs_undo, Prod.swap_swap]
  exact blockOfWords_loadedWords b

theorem cipher_decrypt_encrypt (T : Fin 4 → Byte → Word) (ks : Subkeys) (b : Block) :
    cipher decryptPairs T ks (cipher encryptPairs T ks b) = b := by
  rw [decryptPairs_eq, cipher_undo]

theorem cipher_encrypt_decrypt (T : Fin 4 → Byte → Word) (ks : Subkeys) (b : Block) :
    cipher encryptPairs T ks (cipher decryptPairs T ks b) = b := by
  rw [encryptPairs_eq, cipher_undo]

/-- With equal subkeys the two schedules name the same words in each round. -/
theorem cipher_of_equal_subkeys {ks : Subkeys} (h : ∀ i j, ks.get i = ks.get j)
    (T : Fin 4 → Byte → Word) (b : Block) :
    cipherBlock encryptPairs T ks b = cipherBlock decryptPairs T ks b := by
  have hstep : ∀ n p, pairStep T ks n (schedulePair 0 p) = pairStep T ks n (schedulePair 1 p) := by
    intro n p
    simp only [pairStep, h (schedulePair 0 p).1 (schedulePair 1 p).1,
      h (schedulePair 0 p).2 (schedulePair 1 p).2]
  simp only [cipherBlock, ← schedulePairs_encrypt, ← schedulePairs_decrypt, schedulePairs, List.foldl_map,
    hstep]

@[simp] theorem after_cipher_k (s : State) (pairs : List (Fin 8 × Fin 8)) (T : Fin 4 → Byte → Word)
    (b : Block) : (s.after (.cipher pairs T b)).k = s.k := rfl

/-- What a processed block adds to the responses. -/
theorem after_cipher_outbox (s : State) (pairs : List (Fin 8 × Fin 8)) (T : Fin 4 → Byte → Word)
    (b : Block) :
    (s.after (.cipher pairs T b)).outbox =
      s.outbox ++ [[0x00#8, 0x00#8, 0x08#8, 0x00#8] ++ (cipher pairs T s.k b).bytes] := by
  rw [after_outbox, ← cipherBlock_eq, ← rspFrame_cipherBlock]
  rfl

end Sys2Proof.Machine

namespace Sys2Proof

open Machine

/-! ### The whole next state -/

/-- Settles O13: a keyed engine with its table decides for the cipher over the encryption pairs. -/
theorem encryptBlockRunsTheEncryptionPairs : Obligations.EncryptBlockRunsTheEncryptionPairs := by
  intro s T b hk hT
  rw [exec_encrypt_of_reads hk hT, ← rspFrame_cipherBlock]
  rfl

/-- Settles O14: the same with the decryption pairs. -/
theorem decryptBlockRunsTheDecryptionPairs : Obligations.DecryptBlockRunsTheDecryptionPairs := by
  intro s T b hk hT
  rw [exec_decrypt_of_reads hk hT, ← rspFrame_cipherBlock]
  rfl

/-- Settles O15: without a key both directions decide for the error. -/
theorem blockCommandWithoutKeyAnswersNoKey : Obligations.BlockCommandWithoutKeyAnswersNoKey := by
  intro s b hk i hi
  have hblock : i.isBlock = true := by
    simp only [List.mem_cons, List.not_mem_nil, or_false] at hi
    rcases hi with rfl | rfl <;> rfl
  obtain ⟨pairs, b', heffect⟩ := effect_of_isBlock hblock
  exact exec_of_error ((heffect s).trans (blockEffect_of_no_key hk pairs b'))

/-- Settles O16: whatever a block command answers, its next state has the old context and ROMs. -/
theorem blockCommandsKeepContextAndRoms : Obligations.BlockCommandsKeepContextAndRoms := by
  intro i s t hblock hexec
  obtain ⟨r, rfl⟩ := exec_block_next hblock hexec
  exact ⟨⟨rfl, rfl, rfl, rfl⟩, rfl, rfl, rfl, r, rfl⟩

/-- Settles O17: whatever a block command answers, its next state has the transient registers zero. -/
theorem blockCommandsZeroise : Obligations.BlockCommandsZeroise := by
  intro i s t hblock hexec
  obtain ⟨r, rfl⟩ := exec_block_next hblock hexec
  exact ⟨rfl, rfl, rfl, rfl, rfl, rfl⟩

/-! ### Relations between block commands -/

/-- Settles O18: the pairs of one direction undo the cipher of the other. -/
theorem decryptionInvertsEncryption : Obligations.DecryptionInvertsEncryption := by
  intro s T b hk hT
  constructor
  · have hk' : (s.after (.cipher encryptPairs T b)).keyValid = true := hk
    have hT' : (s.after (.cipher encryptPairs T b)).reads T := hT
    refine ⟨_, _, _, exec_encrypt_of_reads hk hT b, after_cipher_outbox ..,
      exec_decrypt_of_reads hk' hT' _, ?_⟩
    rw [after_cipher_outbox, after_cipher_k, cipher_decrypt_encrypt]
  · have hk' : (s.after (.cipher decryptPairs T b)).keyValid = true := hk
    have hT' : (s.after (.cipher decryptPairs T b)).reads T := hT
    refine ⟨_, _, _, exec_decrypt_of_reads hk hT b, after_cipher_outbox ..,
      exec_encrypt_of_reads hk' hT' _, ?_⟩
    rw [after_cipher_outbox, after_cipher_k, cipher_encrypt_decrypt]

/-- Settles O19: the response is that of the cipher on the subkeys and the table, both of which a block
command keeps. -/
theorem blockResponseDependsOnBlockKeyTable : Obligations.BlockResponseDependsOnBlockKeyTable := by
  have answers : ∀ (i : Instr) (s s' : State) (T : Fin 4 → Byte → Word), i.isBlock = true →
      s.keyValid = true → s'.keyValid = true → s.reads T → s'.reads T → s'.k = s.k →
        ∃ r t t', exec i s = .next t ∧ t.outbox = s.outbox ++ [r]
          ∧ exec i s' = .next t' ∧ t'.outbox = s'.outbox ++ [r] := by
    intro i s s' T hblock hk hk' hT hT' hks
    obtain ⟨pairs, b, heffect⟩ := effect_of_isBlock hblock
    refine ⟨_, _, _, exec_of_effect ((heffect s).trans (blockEffect_of_reads hk hT pairs b)),
      after_outbox s _, exec_of_effect ((heffect s').trans (blockEffect_of_reads hk' hT' pairs b)), ?_⟩
    rw [after_outbox, hks]
  refine ⟨answers, ?_⟩
  intro i j s t T hblock hblock' hk hT hexec
  obtain ⟨r, rfl⟩ := exec_block_next hblock hexec
  exact answers j s _ T hblock' hk hk hT hT rfl

/-- Settles O20: with equal subkeys both directions answer the same bytes. -/
theorem equalSubkeysMakeDirectionsEqual : Obligations.EqualSubkeysMakeDirectionsEqual := by
  intro s T b hk hT hequal
  refine ⟨_, exec_encrypt_of_reads hk hT b, ?_⟩
  rw [exec_decrypt_of_reads hk hT]
  simp only [State.after, cipher_of_equal_subkeys hequal]

end Sys2Proof
end

section
/-! The sequencer's schedule and its count of round applications (43_feistel_engine.md R153, R154, R157,
10_state.md R22). -/

namespace Sys2Proof.Machine

variable (T : Fin 4 → Byte → Word)

/-- At `RC = 32` a round application does nothing (10_state.md R22). -/
theorem roundApplication_of_done {s : State} (h : 32 ≤ s.rc.toNat) : s.roundApplication T = s := by
  rcases roundApplication_cases T s with ⟨_, e⟩ | ⟨_, _⟩ | ⟨_, _⟩
  · exact e
  · omega
  · omega

theorem roundApplications_of_done {s : State} (h : 32 ≤ s.rc.toNat) (n : Nat) :
    s.roundApplications T n = s := by
  induction n with
  | zero => rfl
  | succ n ih => rw [State.roundApplications, roundApplication_of_done T h, ih]

/-- `RC` counts to 32 and stops. -/
theorem roundApplications_rc {s : State} (h : s.rc.toNat ≤ 32) (n : Nat) :
    (s.roundApplications T n).rc.toNat = min (s.rc.toNat + n) 32 := by
  induction n generalizing s with
  | zero => simp [State.roundApplications, h]
  | succ n ih =>
    rw [State.roundApplications]
    by_cases hlt : s.rc.toNat < 32
    · rw [ih (by rw [roundApplication_rc T hlt]; omega), roundApplication_rc T hlt]
      omega
    · rw [roundApplication_of_done T (by omega), ih h]
      omega

theorem roundApplications_rc_of_zero {s : State} (h : s.rc = 0) (n : Nat) :
    (s.roundApplications T n).rc.toNat = min n 32 := by
  rw [roundApplications_rc T (by simp [h]), h]
  simp

/-- The pairs of a direction by their place in the schedule. -/
theorem getElem?_schedulePairs (dir : BitVec 1) (p : Fin 16) :
    (schedulePairs dir)[p.val]? = some (schedulePair dir p) := by
  simp [schedulePairs]

end Sys2Proof.Machine

namespace Sys2Proof

open Machine

/-- Settles O21: the pair lists are the schedule's pairs, and the counts are evaluated. -/
theorem scheduleIsTheSourcesPairLists : Obligations.ScheduleIsTheSourcesPairLists := by
  refine ⟨fun p => ⟨?_, ?_⟩, rfl, rfl, ?_, by decide⟩
  · rw [← schedulePairs_encrypt]
    exact getElem?_schedulePairs 0 p
  · rw [← schedulePairs_decrypt]
    exact getElem?_schedulePairs 1 p
  · intro s
    rw [sched_reversed]
    congr 1
    ext
    simp only [Fin.val_rev]
    omega

/-- Settles O22: the two live cases of a round application, by the parity of `RC`. -/
theorem roundApplicationUpdatesOneRegister : Obligations.RoundApplicationUpdatesOneRegister := by
  intro T s h
  refine ⟨fun heven => ?_, fun hodd => ?_, roundApplication_rc T h⟩
  · rcases roundApplication_cases T s with ⟨_, _⟩ | ⟨_, _, e⟩ | ⟨_, _, _⟩
    · omega
    · exact e
    · omega
  · rcases roundApplication_cases T s with ⟨_, _⟩ | ⟨_, _, _⟩ | ⟨_, _, e⟩
    · omega
    · omega
    · exact e

/-- Settles O25: `RC` counts the applications up to 32, and a block command loads with `RC = 0`. -/
theorem exactlyThirtyTwoApplications : Obligations.ExactlyThirtyTwoApplications := by
  refine ⟨fun T s h => ⟨roundApplications_rc_of_zero T h, fun m => ?_⟩, ?command⟩
  · rw [roundApplications_add]
    exact roundApplications_of_done T (by rw [roundApplications_rc_of_zero T h, Nat.min_self]) m
  case command =>
    intro s T b i dir hi hk hT
    refine ⟨_, rfl, rfl, ?_, ?_, fun n hn => ?_⟩
    · have hblock := blockCommand_of_table hk (activeTable_of_reads hT) dir b
      rcases hi with ⟨rfl, rfl⟩ | ⟨rfl, rfl⟩ <;> exact hblock
    · apply BitVec.eq_of_toNat_eq
      rw [roundApplications_rc_of_zero T rfl]
      rfl
    · rw [roundApplications_rc_of_zero T rfl]
      omega

end Sys2Proof
end

section
/-! The invariant (10_state.md sections 1, 4 and 7): it holds at reset, every step keeps it, and from it every
whole frame is dealt with. -/

namespace Sys2Proof.Machine

/-! ### What each effect keeps -/

namespace Invariant

variable {s : State} (h : Invariant s)
include h

/-- The host's inputs are no part of the invariant. -/
theorem with_inbox (inbox : List HostInput) : Invariant { s with inbox := inbox } :=
  ⟨h.roms, h.idle, h.keyed_has_table, h.tsel_in_range, h.unkeyed_zero⟩

theorem raise (e : Status) : Invariant (s.raise e) :=
  ⟨h.roms, raise_idle s e, h.keyed_has_table, h.tsel_in_range, h.unkeyed_zero⟩

/-- An engine of the invariant has its default table (00_scope.md R8). -/
theorem defaultTable_lt : defaultTable s.rrom < registrySize s.rrom := by
  obtain ⟨set, hwf, hrrom, -⟩ := h.roms
  rw [hrrom, registrySize_rromImage]
  exact Machine.defaultTable_lt hwf

/-- Every effect keeps the invariant, if a selected table is one of the registry's. -/
theorem after (e : Effect) (hsel : ∀ n, e = .select n → n < registrySize s.rrom) :
    Invariant (s.after e) := by
  obtain ⟨hn1, hn2, hrc, hdir, -, -⟩ := idle_iff.1 h.idle
  cases e with
  | error e => exact h.raise e
  | key ks =>
    refine ⟨h.roms, idle_iff.2 ⟨hn1, hn2, hrc, hdir, rfl, rfl⟩, fun _ => rfl, fun _ => ?_, nofun⟩
    change (if s.tselValid then s.tsel else defaultTable s.rrom) < registrySize s.rrom
    split
    · exact h.tsel_in_range ‹_›
    · exact h.defaultTable_lt
  | select n =>
    exact ⟨h.roms, idle_iff.2 ⟨hn1, hn2, hrc, hdir, rfl, rfl⟩, fun _ => rfl, fun _ => hsel n rfl,
      h.unkeyed_zero⟩
  | cipher pairs T b =>
    exact ⟨h.roms, rfl, h.keyed_has_table, h.tsel_in_range, h.unkeyed_zero⟩

theorem hardReset : Invariant s.hardReset :=
  ⟨h.roms, rfl, nofun, nofun, fun _ => rfl⟩

end Invariant

/-- A decided selection is in range (10_state.md R27). -/
theorem effect_select_lt {i : Instr} {s : State} {n : Nat} (h : s.effect i = some (.select n)) :
    n < registrySize s.rrom := by
  cases effect_decides h with
  | select n oid hn hblock hmem => exact lookup_lt hn

/-! ### Commands, frames and steps keep the invariant -/

theorem exec_keeps_invariant {i : Instr} {s t : State} (hinv : Invariant s) (h : exec i s = .next t) :
    Invariant t := by
  obtain ⟨e, he, rfl⟩ := exec_eq_next_iff.1 h
  exact hinv.after e fun n hn => effect_select_lt (hn ▸ he)

theorem runFrame_keeps_invariant {bytes : ByteString} {s t : State} (hinv : Invariant s)
    (h : runFrame bytes s = .next t) : Invariant t := by
  obtain ⟨i, -, hexec⟩ | ⟨_, -, -, rfl⟩ := runFrame_next h
  · exact exec_keeps_invariant hinv hexec
  · exact hinv.raise .illegalCommand

theorem step_keeps_invariant {s t : State} (hinv : Invariant s) (h : step s = .next t) : Invariant t := by
  obtain ⟨-, rfl⟩ | ⟨bytes, rest, -, hrun⟩ | ⟨rest, -, rfl⟩ | ⟨bytes, rest, -, -, rfl⟩ := step_next h
  · exact hinv
  · exact runFrame_keeps_invariant (hinv.with_inbox rest) hrun
  · exact (hinv.with_inbox rest).hardReset
  · exact (hinv.with_inbox rest).hardReset

theorem resetWith_invariant {set : SboxSet} (hwf : set.wf = true) : Invariant (State.resetWith set) :=
  ⟨⟨set, hwf, rfl, length_sromImage set⟩, rfl, nofun, nofun, fun _ => rfl⟩

/-! ### From the invariant every whole frame is dealt with -/

/-- The active table of a keyed engine is in `SROM` (10_state.md R29). -/
theorem Invariant.exists_reads {s : State} (h : Invariant s) (hk : s.keyValid = true) : ∃ T, s.reads T := by
  have hv := h.keyed_has_table hk
  have htsel := h.tsel_in_range hv
  obtain ⟨set, -, hrrom, hsrom⟩ := h.roms
  rw [hrrom, registrySize_rromImage] at htsel
  have hfits : (s.tsel + 1) * tableWords ≤ s.srom.length := by
    rw [hsrom]
    exact Nat.mul_le_mul_right _ htsel
  exact ⟨_, reads_of_activeTable (activeTable_eq_some.2 ⟨hfits, hv, rfl⟩)⟩

theorem Invariant.exists_blockEffect {s : State} (h : Invariant s) (pairs : List (Fin 8 × Fin 8))
    (b : Block) : ∃ e, s.blockEffect pairs b = some e := by
  cases hk : s.keyValid with
  | false => exact ⟨_, blockEffect_of_no_key hk pairs b⟩
  | true =>
    obtain ⟨T, hT⟩ := h.exists_reads hk
    exact ⟨_, blockEffect_of_reads hk hT pairs b⟩

theorem Invariant.exec_goes_on {s : State} (h : Invariant s) (i : Instr) : ∃ t, exec i s = .next t := by
  have heffect : ∃ e, s.effect i = some e := by
    cases i with
    | setKey key => exact ⟨_, rfl⟩
    | encryptBlock b => exact h.exists_blockEffect encryptPairs b
    | decryptBlock b => exact h.exists_blockEffect decryptPairs b
    | selectSbox oid => exact ⟨_, rfl⟩
    | configUnsupported op payload => exact ⟨_, rfl⟩
  obtain ⟨e, he⟩ := heffect
  exact ⟨_, exec_of_effect he⟩

theorem Invariant.runFrame_goes_on {s : State} (h : Invariant s) {bytes : ByteString}
    (hw : wholeFrame bytes = true) : ∃ t, runFrame bytes s = .next t := by
  obtain ⟨opc, subop, lo, hi, p, rfl, hlen⟩ := wholeFrame_iff.1 hw
  by_cases hillegal : illegalHeader opc subop p.length
  · exact ⟨_, runFrame_of_illegal hlen hillegal s⟩
  · obtain ⟨i, hi⟩ := decodeCommand_of_legal hillegal
    obtain ⟨t, ht⟩ := h.exec_goes_on i
    exact ⟨t, (runFrame_of_ok ((decode_cons hlen).trans hi) s).trans ht⟩

theorem runFrame_of_not_whole {bytes : ByteString} (hw : wholeFrame bytes = false) (s : State) :
    runFrame bytes s = .refused .notWholeFrame := by
  simp [runFrame, decode_not_whole hw, rejectFrame]

/-- Every frame that is dealt with is answered once, and later inputs wait (60_exceptions.md R196). -/
theorem runFrame_answers {bytes : ByteString} {s t : State} (h : runFrame bytes s = .next t) :
    t.inbox = s.inbox ∧ ∃ r, t.outbox = s.outbox ++ [r] := by
  obtain ⟨i, -, hexec⟩ | ⟨_, -, -, rfl⟩ := runFrame_next h
  · obtain ⟨e, -, rfl⟩ := exec_eq_next_iff.1 hexec
    exact ⟨after_inbox s e, _, after_outbox s e⟩
  · exact ⟨rfl, _, rfl⟩

theorem step_of_reset {s : State} {rest : List HostInput} (h : s.inbox = .reset :: rest) :
    step s = .next (State.hardReset { s with inbox := rest }) := by
  simp [step, h]

theorem step_of_frameThenReset {s : State} {bytes : ByteString} {rest : List HostInput}
    (h : s.inbox = .frameThenReset bytes :: rest) :
    step s = abandonFrame bytes { s with inbox := rest } := by
  simp [step, h]

theorem step_of_no_input {s : State} (h : s.inbox = []) : step s = .next s := by
  simp [step, h]

/-! ### Runs of frames -/

theorem run_succ_of_step {s t : State} (h : step s = .next t) (n : Nat) :
    Sys2Proof.core.run (n + 1) s = Sys2Proof.core.run n t := by
  have hcore : Sys2Proof.core.step s = .next t := h
  simp only [Host.Core.run, hcore]

end Sys2Proof.Machine

namespace Sys2Proof

open Machine

/-- Settles O45: every way of making a step keeps the invariant. -/
theorem everyStepKeepsTheInvariant : Obligations.EveryStepKeepsTheInvariant := by
  intro s t hinv hstep
  exact step_keeps_invariant hinv hstep

/-- Settles O46: reset provisions the ROMs of the set, without a key or a table. -/
theorem resetMeetsTheInvariant : Obligations.ResetMeetsTheInvariant :=
  ⟨fun _ hwf => resetWith_invariant hwf, rfl⟩

/-- Settles O47: only an input that is no whole frame stops the machine. -/
theorem noFaultFromTheInvariant : Obligations.NoFaultFromTheInvariant := by
  intro s hinv
  cases hinbox : s.inbox with
  | nil => exact .inl ⟨s, step_of_no_input hinbox⟩
  | cons input rest =>
    cases input with
    | reset => exact .inl ⟨_, step_of_reset hinbox⟩
    | frame bytes =>
      rw [step_of_frame hinbox]
      cases hw : wholeFrame bytes with
      | true => exact .inl ((hinv.with_inbox rest).runFrame_goes_on hw)
      | false => exact .inr ⟨runFrame_of_not_whole hw _, bytes, rest, hw, .inl rfl⟩
    | frameThenReset bytes =>
      rw [step_of_frameThenReset hinbox]
      cases hw : wholeFrame bytes with
      | true => exact .inl ⟨_, if_pos hw⟩
      | false => exact .inr ⟨if_neg (by simp [hw]), bytes, rest, hw, .inr rfl⟩

/-- Settles O48: by induction on the frames. The first step deals with the first frame, keeps the invariant,
and leaves the other frames to the induction hypothesis; a number of steps `k + 1` is that step and `k`. -/
theorem everyFrameGetsOneResponseInOrder : Obligations.EveryFrameGetsOneResponseInOrder := by
  intro fs
  induction fs with
  | nil =>
    intro s hinv _ hinbox
    exact ⟨s, [], rfl, hinbox, rfl, by simp, hinv, by simp⟩
  | cons f fs ih =>
    intro s hinv hwhole hinbox
    rw [List.map_cons] at hinbox
    obtain ⟨v, hrun⟩ := (hinv.with_inbox (fs.map .frame)).runFrame_goes_on (hwhole f List.mem_cons_self)
    have hstep : step s = .next v := (step_of_frame hinbox).trans hrun
    obtain ⟨hvin, r, hvout⟩ := runFrame_answers hrun
    obtain ⟨t, rs, hrunAll, htin, hlen, htout, htinv, hk⟩ :=
      ih v (step_keeps_invariant hinv hstep) (fun g hg => hwhole g (List.mem_cons_of_mem f hg)) hvin
    refine ⟨t, r :: rs, (run_succ_of_step hstep _).trans hrunAll, htin, by simp [hlen], ?_, htinv, ?_⟩
    · simp [htout, hvout]
    · intro k g hg
      cases k with
      | zero =>
        obtain rfl : f = g := by simpa using hg
        exact ⟨s, v, r, rfl, hinbox, by simp, rfl, hrun, run_succ_of_step hstep 0, hvout⟩
      | succ k =>
        obtain ⟨u, w, q, hu, huin, huout, hq, hw, hrunw, hwout⟩ := hk k g hg
        refine ⟨u, w, q, (run_succ_of_step hstep k).trans hu, huin, ?_, hq, hw,
          (run_succ_of_step hstep (k + 1)).trans hrunw, hwout⟩
        simp [huout, hvout]

end Sys2Proof
end

section
/-! Whole-machine rules: what a step can do to the context and the ROMs, and what reset does (10_state.md
sections 4 and 9, 20_memory.md section 7, 70_reset_and_hazards.md section 1). -/

namespace Sys2Proof.Machine

/-! ### The writers of the context -/

/-- What a step can do to the context (10_state.md R24 to R28). -/
inductive ContextStep (s t : State) : Prop where
  | kept (h : s.sameContext t)
  | keyed (key : ByteString) (h : key.length = 32) (hin : s.keyInput key)
      (hk : t.k = subkeysOf key h) (hkv : t.keyValid = true)
      (htsel : t.tsel = if s.tselValid then s.tsel else defaultTable s.rrom) (htv : t.tselValid = true)
  | selected (n : Nat) (hin : s.selectionInput n)
      (hk : t.k = s.k) (hkv : t.keyValid = s.keyValid) (htsel : t.tsel = n) (htv : t.tselValid = true)
  | reset (hin : s.resetInput)
      (hk : t.k = Subkeys.zero) (hkv : t.keyValid = false) (htv : t.tselValid = false)

/-- A frame's command writes the context only as a key or a selection. -/
theorem contextStep_of_runFrame {s t : State} {bytes : ByteString} {rest : List HostInput}
    (hin : s.inbox = .frame bytes :: rest) (h : runFrame bytes { s with inbox := rest } = .next t) :
    ContextStep s t := by
  obtain ⟨i, hdecode, hexec⟩ | ⟨_, -, -, rfl⟩ := runFrame_next h
  case inr => exact .kept ⟨rfl, rfl, rfl, rfl⟩
  case inl =>
    cases exec_next (decode_ok_wf hdecode) hexec with
    | error e he hp => exact .kept (hp ▸ raise_sameContext _ e)
    | keyed key hlen hi hp =>
      rw [keyed_state] at hp
      subst hi hp
      exact .keyed key hlen ⟨hlen, bytes, rest, hin, hdecode⟩ rfl rfl rfl rfl
    | selected oid n hn hi hp =>
      subst hi hp
      exact .selected n ⟨bytes, rest, oid, hin, hdecode, hn⟩ rfl rfl rfl rfl
    | block T dir b hi hk hT hp =>
      rw [processBlock_eq] at hp
      subst hp
      exact .kept ⟨rfl, rfl, rfl, rfl⟩

theorem step_contextStep {s t : State} (h : step s = .next t) : ContextStep s t := by
  obtain ⟨-, rfl⟩ | ⟨bytes, rest, hin, hrun⟩ | ⟨rest, hin, rfl⟩ | ⟨bytes, rest, hin, -, rfl⟩ := step_next h
  · exact .kept ⟨rfl, rfl, rfl, rfl⟩
  · exact contextStep_of_runFrame hin hrun
  · exact .reset ⟨rest, .inl hin⟩ rfl rfl rfl
  · exact .reset ⟨rest, .inr ⟨bytes, hin⟩⟩ rfl rfl rfl

/-! ### The ROMs -/

theorem runFrame_keeps_roms {bytes : ByteString} {s t : State} (h : runFrame bytes s = .next t) :
    t.srom = s.srom ∧ t.rrom = s.rrom := by
  obtain ⟨i, -, hexec⟩ | ⟨_, -, -, rfl⟩ := runFrame_next h
  · obtain ⟨e, -, rfl⟩ := exec_eq_next_iff.1 hexec
    exact ⟨after_srom s e, after_rrom s e⟩
  · exact ⟨rfl, rfl⟩

theorem step_keeps_roms {s t : State} (h : step s = .next t) : t.srom = s.srom ∧ t.rrom = s.rrom := by
  obtain ⟨-, rfl⟩ | ⟨bytes, rest, -, hrun⟩ | ⟨rest, -, rfl⟩ | ⟨bytes, rest, -, -, rfl⟩ := step_next h
  · exact ⟨rfl, rfl⟩
  · obtain ⟨hsrom, hrrom⟩ := runFrame_keeps_roms hrun
    exact ⟨hsrom, hrrom⟩
  · exact ⟨rfl, rfl⟩
  · exact ⟨rfl, rfl⟩

/-! ### Reset -/

theorem Subkeys.get_zero (i : Fin 8) : Subkeys.zero.get i = 0x00000000#32 := by
  revert i
  decide

end Sys2Proof.Machine

namespace Sys2Proof

open Machine

/-- Settles O2: without input the step is the identity. -/
theorem idleEngineKeepsItsState : Obligations.IdleEngineKeepsItsState := by
  intro s hinbox
  exact step_of_no_input hinbox

/-- Settles O43: reset writes each register, and the host's reset is that reset on the state without it. -/
theorem resetPutsEveryRegisterAtItsValue : Obligations.ResetPutsEveryRegisterAtItsValue := by
  refine ⟨Subkeys.get_zero, rfl, rfl, rfl, rfl, rfl, rfl, rfl, rfl, fun s rest hinbox => ?_⟩
  exact ⟨_, step_of_reset hinbox, Subkeys.get_zero, rfl, rfl, rfl, rfl, rfl, rfl, rfl⟩

/-- Settles O44: both steps are the reset of the state without the input. -/
theorem resetAbandonsTheCommand : Obligations.ResetAbandonsTheCommand := by
  intro s bytes rest hwhole hinbox
  exact ⟨_, (step_of_frameThenReset hinbox).trans (if_pos hwhole), step_of_reset rfl, rfl⟩

/-- Settles O49: no command and no reset writes a ROM. -/
theorem romsAreReadOnly : Obligations.RomsAreReadOnly := by
  intro s t h
  exact step_keeps_roms h

/-- Settles O50: a step keeps the context, or accepts a key, selects a table or resets. -/
theorem onlyNamedWritersOfTheContext : Obligations.OnlyNamedWritersOfTheContext := by
  intro s t h
  cases step_contextStep h with
  | kept hkept =>
    obtain ⟨hk, hkv, htsel, htv⟩ := hkept
    exact ⟨fun hne => absurd hk hne, fun hne => absurd hkv hne, fun hne => absurd htsel hne,
      fun hne => absurd htv hne⟩
  | keyed key hlen hin hk hkv htsel htv =>
    refine ⟨fun _ => .inl ⟨key, hlen, hin, hk⟩, fun _ => .inl ⟨hkv, key, hin⟩, fun hne => ?_,
      fun _ => .inl ⟨htv, .inr ⟨key, hin⟩⟩⟩
    cases hv : s.tselValid with
    | true => exact absurd (by simpa [hv] using htsel) hne
    | false => exact .inr (.inl ⟨rfl, by simpa [hv] using htsel, key, hin⟩)
  | selected n hin hk hkv htsel htv =>
    subst htsel
    exact ⟨fun hne => absurd hk hne, fun hne => absurd hkv hne, fun _ => .inl hin,
      fun _ => .inl ⟨htv, .inl hin⟩⟩
  | reset hin hk hkv htv =>
    exact ⟨fun _ => .inr ⟨hin, hk⟩, fun _ => .inr ⟨hkv, hin⟩, fun _ => .inr (.inr hin),
      fun _ => .inr ⟨htv, hin⟩⟩

/-- Settles O51: a key and a selection only set the flags. -/
theorem onlyResetClearsTheFlags : Obligations.OnlyResetClearsTheFlags := by
  intro s t h hcleared
  cases step_contextStep h with
  | kept hkept =>
    obtain ⟨-, hkv, -, htv⟩ := hkept
    simp [hkv, htv] at hcleared
  | keyed key hlen hin hk hkv htsel htv => simp [hkv, htv] at hcleared
  | selected n hin hk hkv htsel htv => simp [hkv, htv] at hcleared
  | reset hin hk hkv htv => exact hin

/-- Settles O52: the invariant gives the table and its range, and `TSEL` is as wide as the range. -/
theorem keyedEngineHasItsTable : Obligations.KeyedEngineHasItsTable := by
  intro s hinv hk
  have hlt := hinv.tsel_in_range (hinv.keyed_has_table hk)
  refine ⟨hinv.exists_reads hk, hlt, ?_⟩
  calc s.tsel < registrySize s.rrom := hlt
    _ ≤ 2 ^ Nat.clog 2 (registrySize s.rrom) := Nat.le_pow_clog Nat.one_lt_two _
    _ ≤ 2 ^ tselWidth (registrySize s.rrom) := Nat.pow_le_pow_right Nat.two_pos (Nat.le_max_right _ _)

end Sys2Proof
end

section
/-! Responses (30_encoding.md R83, 60_exceptions.md R182 and R186): the statuses of each command, the shape of
every response, and that a failed command leaves only its response behind. -/

namespace Sys2Proof.Machine

/-! ### Statuses and payloads of decisions -/

theorem Decides.status_mem {s : State} {i : Instr} {e : Effect} (h : Decides s i e) (hwf : i.wf = true) :
    e.status ∈ i.possible := by
  cases h with
  | error st hst hmem => exact hmem hwf
  | key ks hblock hmem => exact hmem
  | select n oid hn hblock hmem => exact hmem hwf
  | cipher pairs T b hk hblock hmem => exact hmem

/-- Eight payload bytes for a block that went through the cipher, none for anything else (R83). -/
theorem Decides.payload_length {s : State} {i : Instr} {e : Effect} (h : Decides s i e) (ks : Subkeys) :
    ((e.payload ks).length = 8 ∧ e.status = .ok ∧ i.isBlock = true)
      ∨ ((e.payload ks).length = 0 ∧ ¬ (e.status = .ok ∧ i.isBlock = true)) := by
  cases h with
  | error st hst hmem => exact .inr ⟨rfl, fun hok => hst hok.1⟩
  | key ks hblock hmem => exact .inr ⟨rfl, by simp [hblock]⟩
  | select n oid hn hblock hmem => exact .inr ⟨rfl, by simp [hblock]⟩
  | cipher pairs T b hk hblock hmem => exact .inl ⟨rfl, rfl, hblock⟩

/-! ### The engine does not read its responses -/

theorem after_with_outbox (s : State) (o : List ByteString) (e : Effect) :
    State.after { s with outbox := o } e =
      { s.after e with outbox := o ++ [rspFrame e.status (e.payload s.k)] } := by
  cases e <;> rfl

theorem exec_with_outbox {i : Instr} {s u : State} (h : exec i s = .next u) (o : List ByteString) :
    ∃ r, u.outbox = s.outbox ++ [r]
      ∧ exec i { s with outbox := o } = .next { u with outbox := o ++ [r] } := by
  obtain ⟨e, he, rfl⟩ := exec_eq_next_iff.1 h
  have he' : State.effect { s with outbox := o } i = some e :=
    (effect_congr rfl (activeTable_congr rfl rfl rfl) rfl i).trans he
  exact ⟨_, after_outbox s e, (exec_of_effect he').trans (congrArg _ (after_with_outbox s o e))⟩

theorem runFrame_with_outbox {bytes : ByteString} {s u : State} (h : runFrame bytes s = .next u)
    (o : List ByteString) :
    ∃ r, u.outbox = s.outbox ++ [r]
      ∧ runFrame bytes { s with outbox := o } = .next { u with outbox := o ++ [r] } := by
  obtain ⟨i, hdecode, hexec⟩ | ⟨e, hdecode, hne, rfl⟩ := runFrame_next h
  · obtain ⟨r, hr, hexec'⟩ := exec_with_outbox hexec o
    exact ⟨r, hr, (runFrame_of_ok hdecode _).trans hexec'⟩
  · refine ⟨_, State.raise_outbox s _, ?_⟩
    simp only [runFrame, hdecode, rejectFrame_of_whole hne]
    rfl

end Sys2Proof.Machine

namespace Sys2Proof

open Machine

/-- Settles O39: the command's decision has a listed status, and is answered with it. -/
theorem everyCommandEndsWithAListedStatus : Obligations.EveryCommandEndsWithAListedStatus := by
  intro i s t hwf hexec
  obtain ⟨e, he, rfl⟩ := exec_eq_next_iff.1 hexec
  exact ⟨e.status, e.payload s.k, (effect_decides he).status_mem hwf, after_outbox s e⟩

/-- Settles O40: a command is answered by its decision's status and payload, an illegal frame by its error. -/
theorem oneWellFormedResponsePerFrame : Obligations.OneWellFormedResponsePerFrame := by
  intro bytes s t hrun
  obtain ⟨i, hdecode, hexec⟩ | ⟨err, hdecode, -, rfl⟩ := runFrame_next hrun
  case inl =>
    obtain ⟨e, he, rfl⟩ := exec_eq_next_iff.1 hexec
    have hpayload := (effect_decides he).payload_length s.k
    have hmax : (e.payload s.k).length ≤ maxPayload := by
      simp only [maxPayload]
      omega
    refine ⟨e.status, _, _, e.payload s.k, after_outbox s e, (le16_le16Bytes hmax).symm, ?_⟩
    simpa [hdecode] using hpayload
  case inr =>
    exact ⟨.illegalCommand, 0x00#8, 0x00#8, [], rfl, rfl, .inr ⟨rfl, by simp⟩⟩

/-- Settles O41: the length and the status code are read back. -/
theorem responsesReadBack : Obligations.ResponsesReadBack := by
  intro st payload h
  simp [rspFrame, parseRsp, le16Bytes, le16_le16Bytes h, ofCode_code]

/-- Settles O42: the failed frame left an idle engine as it was but for its response, and no frame's meaning
reads the responses. -/
theorem failedCommandsLeaveNoTrace : Obligations.FailedCommandsLeaveNoTrace := by
  intro f g s t u st hidle hst hf hout hg
  obtain ⟨e, -, rfl⟩ | ⟨payload, hok⟩ := runFrame_raise_or_ok hf
  case inl =>
    rw [raise_of_idle hidle e]
    exact runFrame_with_outbox hg _
  case inr =>
    have hheader : [st.code, 0x00#8, 0x00#8, 0x00#8] = rspFrame .ok payload := by
      simpa using hout.symm.trans hok
    have hcode : st.code = 0x00#8 := (List.cons.inj hheader).1
    exact absurd (code_eq_zero.1 hcode) hst

end Sys2Proof
end

section
/-! Noninterference: what no command reads (10_state.md R25, R26, R28), and that the engines of a system share
nothing writable (60_exceptions.md R197). -/

namespace Sys2Proof.Machine

/-! ### The subkeys -/

/-- A decision does not read `K`. -/
theorem effect_with_k (s : State) (ks : Subkeys) (i : Instr) :
    State.effect { s with k := ks } i = s.effect i :=
  effect_congr rfl (activeTable_congr rfl rfl rfl) rfl i

/-- An effect that is not the cipher does not read `K`. -/
theorem after_with_k {e : Effect} (h : ∀ pairs T b, e ≠ .cipher pairs T b) (s : State) (ks : Subkeys) :
    State.after { s with k := ks } e =
      { s.after e with k := (State.after { s with k := ks } e).k } := by
  cases e with
  | error e => rfl
  | key ks' => rfl
  | select n => rfl
  | cipher pairs T b => exact absurd rfl (h pairs T b)

/-- The cipher runs only for a block command, and only with a key. -/
theorem effect_eq_cipher {i : Instr} {s : State} {pairs : List (Fin 8 × Fin 8)} {T : Fin 4 → Byte → Word}
    {b : Block} (h : s.effect i = some (.cipher pairs T b)) : i.isBlock = true ∧ s.keyValid = true := by
  cases effect_decides h with
  | cipher pairs T b hk hblock hmem => exact ⟨hblock, hk⟩

/-! ### An unchosen table -/

theorem activeTable_of_unchosen {s : State} (h : s.tselValid = false) : s.activeTable = none := by
  simp [State.activeTable, h]

/-- Without a chosen table a decision does not read `TSEL`. -/
theorem effect_with_tsel {s : State} (h : s.tselValid = false) (x : Nat) (i : Instr) :
    State.effect { s with tsel := x } i = s.effect i := by
  have hx : State.activeTable { s with tsel := x } = none := activeTable_of_unchosen h
  apply effect_congr
  · rfl
  · rw [hx, activeTable_of_unchosen h]
  · rfl

/-- Without a chosen table an effect leaves `TSEL` or overwrites it. -/
theorem after_with_tsel {s : State} (h : s.tselValid = false) (x : Nat) (e : Effect) :
    State.after { s with tsel := x } e =
      { s.after e with tsel := if (s.after e).tselValid then (s.after e).tsel else x } := by
  cases e <;> simp [State.after, State.raise, State.zeroise, State.respond, h]

/-! ### Several engines -/

/-- What a step of one engine does to the system. -/
theorem stepInstance_eq_next_iff {sys a : System} {m : Nat} :
    System.stepInstance sys m = .next a ↔
      (sys[m]? = none ∧ a = sys) ∨ ∃ s t, sys[m]? = some s ∧ step s = .next t ∧ a = sys.set m t := by
  unfold System.stepInstance
  cases hs : sys[m]? with
  | none => simp [eq_comm]
  | some s => cases ht : step s <;> simp [ht, eq_comm]

/-- Sharing the ROMs, as one pair of images for all engines. -/
theorem sharesRoms_iff {sys : System} :
    System.sharesRoms sys = true ↔ ∃ srom rrom, ∀ s ∈ sys, s.srom = srom ∧ s.rrom = rrom := by
  cases sys with
  | nil => simp [System.sharesRoms]
  | cons s rest =>
    simp only [System.sharesRoms, List.all_eq_true, Bool.and_eq_true, beq_iff_eq, List.forall_mem_cons]
    constructor
    · intro h
      exact ⟨s.srom, s.rrom, ⟨rfl, rfl⟩, h⟩
    · rintro ⟨_, _, ⟨rfl, rfl⟩, h⟩
      exact h

theorem getElem?_stepInstance_of_ne {sys a : System} {m n : Nat} (h : System.stepInstance sys m = .next a)
    (hne : n ≠ m) : a[n]? = sys[n]? := by
  obtain ⟨-, rfl⟩ | ⟨s, t, -, -, rfl⟩ := stepInstance_eq_next_iff.1 h
  · rfl
  · exact List.getElem?_set_ne hne.symm

theorem stepInstance_sharesRoms {sys a : System} {m : Nat} (h : System.stepInstance sys m = .next a)
    (hshare : System.sharesRoms sys = true) : System.sharesRoms a = true := by
  obtain ⟨-, rfl⟩ | ⟨s, t, hs, hstep, rfl⟩ := stepInstance_eq_next_iff.1 h
  · exact hshare
  · obtain ⟨srom, rrom, hall⟩ := sharesRoms_iff.1 hshare
    obtain ⟨hsrom, hrrom⟩ := hall s (List.mem_of_getElem? hs)
    obtain ⟨hsrom', hrrom'⟩ := step_keeps_roms hstep
    refine sharesRoms_iff.2 ⟨srom, rrom, fun u hu => ?_⟩
    rcases List.mem_or_eq_of_mem_set hu with hu | rfl
    · exact hall u hu
    · exact ⟨hsrom'.trans hsrom, hrrom'.trans hrrom⟩

/-- Steps of two engines write different places of the list. -/
theorem stepInstance_comm {sys a b : System} {m n : Nat} (hne : n ≠ m)
    (ha : System.stepInstance sys m = .next a) (hb : System.stepInstance a n = .next b) :
    ∃ c, System.stepInstance sys n = .next c ∧ System.stepInstance c m = .next b := by
  have hn : a[n]? = sys[n]? := getElem?_stepInstance_of_ne ha hne
  obtain ⟨hnone, rfl⟩ | ⟨s, t, hs, hstep, rfl⟩ := stepInstance_eq_next_iff.1 hb
  · exact ⟨sys, stepInstance_eq_next_iff.2 (.inl ⟨hn ▸ hnone, rfl⟩), ha⟩
  · refine ⟨sys.set n t, stepInstance_eq_next_iff.2 (.inr ⟨s, t, hn ▸ hs, hstep, rfl⟩), ?_⟩
    have hm : (sys.set n t)[m]? = sys[m]? := List.getElem?_set_ne hne
    obtain ⟨hnone, rfl⟩ | ⟨s', t', hs', hstep', rfl⟩ := stepInstance_eq_next_iff.1 ha
    · exact stepInstance_eq_next_iff.2 (.inl ⟨hm.trans hnone, rfl⟩)
    · exact stepInstance_eq_next_iff.2 (.inr ⟨s', t', hm.trans hs', hstep', List.set_comm _ _ hne.symm⟩)

end Sys2Proof.Machine

namespace Sys2Proof

open Machine

/-- Settles O53: no decision reads `K`, and of the effects only the cipher does. -/
theorem keysAreNotReadBack : Obligations.KeysAreNotReadBack := by
  intro i s t ks hnot hexec
  obtain ⟨e, he, rfl⟩ := exec_eq_next_iff.1 hexec
  have hcipher : ∀ pairs T b, e ≠ .cipher pairs T b := by
    rintro pairs T b rfl
    obtain ⟨hblock, hk⟩ := effect_eq_cipher he
    simp [hblock, hk] at hnot
  exact ⟨_, exec_of_effect ((effect_with_k s ks i).trans he), after_with_k hcipher s ks⟩

/-- Settles O54: neither the decision nor the effect reads an unchosen `TSEL`. -/
theorem unchosenTableIsNeverRead : Obligations.UnchosenTableIsNeverRead := by
  intro i s t x hv hexec
  obtain ⟨e, he, rfl⟩ := exec_eq_next_iff.1 hexec
  rw [exec_of_effect ((effect_with_tsel hv x i).trans he), after_with_tsel hv]

/-- Settles O55: a step writes one place of the list, with a state of the same ROMs. -/
theorem instancesAreIndependent : Obligations.InstancesAreIndependent := by
  intro sys a m ha
  exact ⟨fun n hne => getElem?_stepInstance_of_ne ha hne, stepInstance_sharesRoms ha,
    fun b n hne hb => stepInstance_comm hne ha hb⟩

end Sys2Proof
end

section
/-! The table compiler and the round function (40_table_compiler.md, 41_round_function.md): compiled entries by
the source's formula, the bits they occupy, and the table invariant. -/

namespace Sys2Proof

/-! ### Words -/

theorem rol32_or (a b : Word) (n : Nat) : rol32 (a ||| b) n = rol32 a n ||| rol32 b n := by
  simp only [rol32, BitVec.shiftLeft_or_distrib, BitVec.ushiftRight_or_distrib]
  ac_rfl

/-- Two nibbles side by side are their number. -/
theorem zext32_or_shift_nibble (low high : Nibble) :
    zext32 low ||| (zext32 high <<< 4) = BitVec.ofNat 32 (low.toNat + 16 * high.toNat) := by
  have hl := low.isLt
  have hh := high.isLt
  apply BitVec.eq_of_toNat_eq
  calc (zext32 low ||| (zext32 high <<< 4)).toNat
      = 2 ^ 4 * high.toNat ||| low.toNat := by
        simp only [zext32, BitVec.toNat_or, BitVec.toNat_shiftLeft, BitVec.toNat_setWidth,
          Nat.shiftLeft_eq]
        rw [Nat.or_comm]
        congr 1 <;> omega
    _ = 2 ^ 4 * high.toNat + low.toNat := (Nat.two_pow_add_eq_or_of_lt hl _).symm
    _ = (BitVec.ofNat 32 (low.toNat + 16 * high.toNat)).toNat := by
        rw [BitVec.toNat_ofNat]
        omega

/-- Placing a number in byte `i` multiplies it. -/
theorem ofNat_shiftLeft_bytes (n i : Nat) : BitVec.ofNat 32 n <<< (8 * i) = BitVec.ofNat 32 (n * 256 ^ i) := by
  apply BitVec.eq_of_toNat_eq
  simp [Nat.shiftLeft_eq, pow_mul]

/-! ### Nibble substitution by nibbles -/

/-- What nibble `n` of the word is substituted by, in its place (00_scope.md R13). -/
def substitutedNibble (C : CompactTable) (v : Word) (n : Fin 8) : Word :=
  zext32 (C.entry (nib v n) n) <<< (4 * n.val)

/-- The substituted word is the OR of its eight nibbles. -/
theorem nibbleSubstitute_eq (C : CompactTable) (v : Word) :
    nibbleSubstitute C v =
      0#32 ||| substitutedNibble C v 0 ||| substitutedNibble C v 1 ||| substitutedNibble C v 2
        ||| substitutedNibble C v 3 ||| substitutedNibble C v 4 ||| substitutedNibble C v 5
        ||| substitutedNibble C v 6 ||| substitutedNibble C v 7 := rfl

/-- The bits of the place of nibble `n`: its own substitute, and nothing of another nibble's. -/
theorem nib_substitutedNibble (C : CompactTable) (v : Word) (m n : Fin 8) :
    nib (substitutedNibble C v m) n = if m = n then C.entry (nib v n) n else 0#4 := by
  apply BitVec.eq_of_getLsbD_eq
  intro k hk
  have hn := n.isLt
  simp only [nib, substitutedNibble, zext32, BitVec.getLsbD_extractLsb', BitVec.getLsbD_shiftLeft,
    BitVec.getLsbD_setWidth, hk, decide_true, Bool.true_and]
  by_cases hmn : m = n
  · subst hmn
    have hin : 4 * m.val + k < 32 := by omega
    have hge : ¬ 4 * m.val + k < 4 * m.val := by omega
    have hsub : 4 * m.val + k - 4 * m.val = k := by omega
    have hk' : k < 32 := by omega
    simp [hin, hge, hsub, hk']
  · have hne : m.val ≠ n.val := fun h => hmn (Fin.ext h)
    simp only [hmn, if_false, BitVec.getLsbD_zero]
    rcases Nat.lt_or_gt_of_ne hne with hlt | hgt
    · have hout : 4 ≤ 4 * n.val + k - 4 * m.val := by omega
      simp [BitVec.getLsbD_of_ge _ _ hout]
    · have hbelow : 4 * n.val + k < 4 * m.val := by omega
      simp [hbelow]

theorem nib_or (a b : Word) (n : Fin 8) : nib (a ||| b) n = nib a n ||| nib b n :=
  BitVec.extractLsb'_or

theorem nib_nibbleSubstitute (C : CompactTable) (v : Word) (n : Fin 8) :
    nib (nibbleSubstitute C v) n = C.entry (nib v n) n := by
  have hzero : nib 0#32 n = 0#4 := by simp [nib]
  simp only [nibbleSubstitute_eq, nib_or, nib_substitutedNibble, hzero]
  match n with
  | 0 | 1 | 2 | 3 | 4 | 5 | 6 | 7 => simp

end Sys2Proof

namespace Sys2Proof.Machine

/-! ### Compiled entries -/

/-- A nibble of byte `i` by its bit position in the word. -/
theorem extractLsb'_byteN (v : Word) (i : Fin 4) (start : Nat) (h : start + 4 ≤ 8) :
    (byteN i v).extractLsb' start 4 = v.extractLsb' (8 * i.val + start) 4 := by
  apply BitVec.eq_of_getLsbD_eq
  intro k hk
  have hk' : start + k < 8 := by omega
  simp only [byteN, BitVec.getLsbD_extractLsb', hk, hk', decide_true, Bool.true_and, Nat.add_assoc]

theorem low_nibble_byteN (v : Word) (i : Fin 4) : (byteN i v).extractLsb' 0 4 = nib v (lowColumn i) := by
  rw [extractLsb'_byteN v i 0 (by omega), nib]
  congr 1
  simp only [lowColumn]
  omega

theorem high_nibble_byteN (v : Word) (i : Fin 4) : (byteN i v).extractLsb' 4 4 = nib v (highColumn i) := by
  rw [extractLsb'_byteN v i 4 (by omega), nib]
  congr 1
  simp only [highColumn]
  omega

/-- An entry is the two substitutes of byte `i`'s nibbles in their places, rotated (R112). -/
theorem compileEntry_byteN (C : CompactTable) (v : Word) (i : Fin 4) :
    compileEntry C i (byteN i v) =
      rol32 (substitutedNibble C v (lowColumn i) ||| substitutedNibble C v (highColumn i)) 11 := by
  have hlow : 8 * i.val = 4 * (lowColumn i).val := by
    simp only [lowColumn]
    omega
  have hhigh : 4 + 8 * i.val = 4 * (highColumn i).val := by
    simp only [highColumn]
    omega
  simp only [compileEntry, low_nibble_byteN, high_nibble_byteN, BitVec.shiftLeft_or_distrib,
    ← BitVec.shiftLeft_add, hhigh]
  rw [hlow]
  rfl

/-- The table invariant (R115), on the compiler's entries. -/
theorem compileEntry_or (C : CompactTable) (v : Word) :
    compileEntry C 0 (byteN 0 v) ||| compileEntry C 1 (byteN 1 v) ||| compileEntry C 2 (byteN 2 v)
      ||| compileEntry C 3 (byteN 3 v) = (nibbleSubstitute C v).rotateLeft 11 := by
  rw [← rol32_eq _ _ (by omega), nibbleSubstitute_eq]
  simp only [compileEntry_byteN, ← rol32_or, BitVec.zero_or, BitVec.or_assoc]
  rfl

/-- An entry as a rotated number: two nibbles of the table in byte `i` (R112). -/
theorem compileEntry_eq (C : CompactTable) (i : Fin 4) (j : Byte) :
    compileEntry C i j =
      (BitVec.ofNat 32 (((C.entry (j.extractLsb' 0 4) (lowColumn i)).toNat
        + 16 * (C.entry (j.extractLsb' 4 4) (highColumn i)).toNat) * 256 ^ i.val)).rotateLeft 11 := by
  simp only [compileEntry, zext32_or_shift_nibble, ofNat_shiftLeft_bytes]
  exact rol32_eq _ 11 (by omega)

/-- The row that the low nibble of a byte value names. -/
theorem entry_low_nibble (C : CompactTable) (j : Byte) (c : Fin 8) :
    C.entry (j.extractLsb' 0 4) c = (C[j.toNat % 16])[c.val] := by
  simp [CompactTable.entry]

/-- The row that the high nibble of a byte value names. -/
theorem entry_high_nibble (C : CompactTable) (j : Byte) (c : Fin 8) :
    C.entry (j.extractLsb' 4 4) c = (C[j.toNat / 16]'(by omega))[c.val] := by
  have hrow : (j.extractLsb' 4 4).toNat = j.toNat / 16 := by
    have hj := j.isLt
    rw [BitVec.extractLsb'_toNat, Nat.shiftRight_eq_div_pow]
    omega
  simp only [CompactTable.entry, hrow]

/-! ### The bits of an entry -/

/-- A word has no bit outside a mask exactly when the mask leaves it. -/
theorem and_not_eq_zero_iff {x m : Word} : x &&& ~~~m = 0 ↔ x &&& m = x := by
  constructor
  · intro h
    calc x &&& m = x &&& m ||| x &&& ~~~m := by rw [h]; exact BitVec.or_zero.symm
      _ = x := by rw [← BitVec.and_or_distrib_left, BitVec.or_not_self, BitVec.and_allOnes]
  · intro h
    rw [← h, BitVec.and_assoc, BitVec.and_not_self]
    exact BitVec.and_zero

/-- Words in disjoint masks have no bit in common. -/
theorem and_eq_zero_of_masks {x y m n : Word} (hx : x &&& m = x) (hy : y &&& n = y)
    (hmn : m &&& n = 0) : x &&& y = 0 := by
  calc x &&& y = (x &&& y) &&& (m &&& n) := by
        conv_lhs => rw [← hx, ← hy]
        ac_rfl
    _ = 0 := by rw [hmn]; exact BitVec.and_zero

theorem or_and_or {x y m n : Word} (hx : x &&& m = x) (hy : y &&& n = y) :
    (x ||| y) &&& (m ||| n) = x ||| y := by
  ext i hi
  have hxi := congrArg (·[i]) hx
  have hyi := congrArg (·[i]) hy
  simp only [BitVec.getElem_and, BitVec.getElem_or] at *
  grind

theorem or_eq_xor_of_and_eq_zero {x y : Word} (h : x &&& y = 0) : x ||| y = x ^^^ y := by
  ext i hi
  have hand : (x[i] && y[i]) = false := by simpa using congrArg (·[i]) h
  simp only [BitVec.getElem_or, BitVec.getElem_xor]
  grind

theorem rotateLeft_and (a b : Word) (n : Nat) :
    (a &&& b).rotateLeft n = a.rotateLeft n &&& b.rotateLeft n := by
  apply BitVec.eq_of_getLsbD_eq
  intro i hi
  simp only [BitVec.getLsbD_rotateLeft, BitVec.getLsbD_and]
  by_cases hwrap : i < n % 32 <;> simp [hwrap, hi]

theorem ofNat_and_byteMask {n : Nat} (h : n < 256) : BitVec.ofNat 32 n &&& 0xFF#32 = BitVec.ofNat 32 n := by
  have hn : n % 2 ^ 32 = n := Nat.mod_eq_of_lt (by omega)
  apply BitVec.eq_of_toNat_eq
  rw [BitVec.toNat_and, BitVec.toNat_ofNat, hn]
  exact (Nat.and_two_pow_sub_one_eq_mod n 8).trans (Nat.mod_eq_of_lt h)

/-- The field of byte position `i` after the rotation (40_table_compiler.md section 4). -/
def entryMask (i : Fin 4) : Word := (0xFF#32 <<< (8 * i.val)).rotateLeft 11

theorem compileEntry_and_entryMask (C : CompactTable) (i : Fin 4) (j : Byte) :
    compileEntry C i j &&& entryMask i = compileEntry C i j := by
  have hlow := (C.entry (j.extractLsb' 0 4) (lowColumn i)).isLt
  have hhigh := (C.entry (j.extractLsb' 4 4) (highColumn i)).isLt
  rw [compileEntry_eq, entryMask, ← ofNat_shiftLeft_bytes, ← rotateLeft_and, ← BitVec.shiftLeft_and_distrib,
    ofNat_and_byteMask (by omega)]

/-- The fields of the four byte positions. -/
theorem entryMask_values :
    entryMask 0 = 0x0007F800#32 ∧ entryMask 1 = 0x07F80000#32 ∧ entryMask 2 = 0xF8000007#32
      ∧ entryMask 3 = 0x000007F8#32 := by decide

/-! ### The round function -/

/-- Equal sums, equal results: the round function looks at its operands' sum only. -/
theorem roundFn_congr {x k x' k' : Word} (h : x + k = x' + k') (T : Fin 4 → Byte → Word) :
    roundFn T x k = roundFn T x' k' := by
  simp only [roundFn, h]

end Sys2Proof.Machine

namespace Sys2Proof

open Machine

/-- Settles O26: the compiled list holds the entries, and an entry is its number rotated. -/
theorem compilerFollowsTheFormula : Obligations.CompilerFollowsTheFormula := by
  intro C i j
  refine ⟨length_compile C, ?_⟩
  rw [getElem?_compile, compileEntry_eq, entry_low_nibble, entry_high_nibble]
  rfl

/-- Settles O27: the compiled list holds the four entries, and their OR folds the substitution. -/
theorem compiledTablesFoldSubstitutionAndRotation :
    Obligations.CompiledTablesFoldSubstitutionAndRotation := by
  intro C v
  refine ⟨_, _, _, _, ?_, getElem?_compile C 1 (byteN 1 v), getElem?_compile C 2 (byteN 2 v),
    getElem?_compile C 3 (byteN 3 v), compileEntry_or C v⟩
  simpa using getElem?_compile C 0 (byteN 0 v)

/-- Settles O28: the substituted word has each nibble's substitute in that nibble's place. -/
theorem nibbleSubstituteByNibbles : Obligations.NibbleSubstituteByNibbles := by
  intro C v n
  exact nib_nibbleSubstitute C v n

/-- Settles O29: each entry lies in its position's field, and the fields are disjoint. -/
theorem entriesOccupyDisjointBits : Obligations.EntriesOccupyDisjointBits := by
  intro C j0 j1 j2 j3
  extract_lets e0 e1 e2 e3
  obtain ⟨m0, m1, m2, m3⟩ := entryMask_values
  have h0 : e0 &&& 0x0007F800#32 = e0 := m0 ▸ compileEntry_and_entryMask C 0 j0
  have h1 : e1 &&& 0x07F80000#32 = e1 := m1 ▸ compileEntry_and_entryMask C 1 j1
  have h2 : e2 &&& 0xF8000007#32 = e2 := m2 ▸ compileEntry_and_entryMask C 2 j2
  have h3 : e3 &&& 0x000007F8#32 = e3 := m3 ▸ compileEntry_and_entryMask C 3 j3
  have d1 : e0 &&& e1 = 0 := and_eq_zero_of_masks h0 h1 (by decide)
  have d2 : (e0 ||| e1) &&& e2 = 0 := and_eq_zero_of_masks (or_and_or h0 h1) h2 (by decide)
  have d3 : (e0 ||| e1 ||| e2) &&& e3 = 0 :=
    and_eq_zero_of_masks (or_and_or (or_and_or h0 h1) h2) h3 (by decide)
  refine ⟨and_not_eq_zero_iff.2 h0, and_not_eq_zero_iff.2 h1, and_not_eq_zero_iff.2 h2,
    and_not_eq_zero_iff.2 h3, ?xor, ?sum⟩
  case xor =>
    rw [← or_eq_xor_of_and_eq_zero d1, ← or_eq_xor_of_and_eq_zero d2, ← or_eq_xor_of_and_eq_zero d3]
  case sum =>
    rw [BitVec.add_eq_or_of_and_eq_zero _ _ d1, BitVec.add_eq_or_of_and_eq_zero _ _ d2,
      BitVec.add_eq_or_of_and_eq_zero _ _ d3]

/-- Settles O30: each table's part of the image is its compiled list. -/
theorem sromHoldsTheCompiledTables : Obligations.SromHoldsTheCompiledTables := by
  intro set
  refine ⟨length_sromImage set, fun t h i j => ?_⟩
  rw [Nat.add_assoc, getElem?_sromImage set t _ (by omega), List.getElem?_eq_getElem h, Option.bind_some]

/-- Settles O31: the active table's words are the compiler's entries, to which the table invariant applies. -/
theorem roundFunctionWithoutTables : Obligations.RoundFunctionWithoutTables := by
  intro set s T r x k hroms hT hr
  have hcompiled : s.reads (compileEntry r.compact) := reads_of_compiled hroms hT.1 hr
  have hTeq : T = compileEntry r.compact :=
    Option.some.inj ((activeTable_of_reads hT).symm.trans (activeTable_of_reads hcompiled))
  subst hTeq
  exact compileEntry_or r.compact (x + k)

/-- Settles O32: each pair of operands has the same sum modulo 2^32. -/
theorem roundFunctionDependsOnTheSum : Obligations.RoundFunctionDependsOnTheSum := by
  intro T x k x' k'
  refine ⟨roundFn_congr (BitVec.add_zero _).symm T, roundFn_congr (BitVec.add_comm x k) T, fun h => ?_⟩
  exact roundFn_congr (BitVec.eq_of_toNat_eq (by simpa only [BitVec.toNat_add] using h)) T

end Sys2Proof
end

section
/-! The text of commands (30_encoding.md R91): the words of a written line, and each word read back. -/

namespace Sys2Proof.Machine.Text

/-! ### Words of a line -/

/-- A line up to its first space, and the rest. -/
theorem split_append_space {w : List Char} (hw : ' ' ∉ w) (rest : List Char) :
    split (w ++ ' ' :: rest) = w :: split rest := by
  induction w with
  | nil => simp [split]
  | cons c w ih =>
    obtain ⟨hc, hw⟩ : ' ' ≠ c ∧ ' ' ∉ w := by simpa using hw
    simp [split, hc.symm, ih hw]

theorem split_of_no_space {w : List Char} (hw : ' ' ∉ w) : split w = [w] := by
  induction w with
  | nil => rfl
  | cons c w ih =>
    obtain ⟨hc, hw⟩ : ' ' ≠ c ∧ ' ' ∉ w := by simpa using hw
    simp [split, hc.symm, ih hw]

theorem words_append_space {w : List Char} (hne : w ≠ []) (hw : ' ' ∉ w) (rest : List Char) :
    words (w ++ ' ' :: rest) = w :: words rest := by
  simp [words, split_append_space hw, hne]

theorem words_of_no_space {w : List Char} (hne : w ≠ []) (hw : ' ' ∉ w) : words w = [w] := by
  simp [words, split_of_no_space hw, hne]

/-! ### Bytes -/

/-- A byte as the word it is written as. -/
def byteWord (b : Byte) : List Char := [hexDigit (b.toNat / 16), hexDigit (b.toNat % 16)]

theorem hexByte_byteWord (b : Byte) : hexByte (byteWord b) = some b := hexByte_hexDigits b

theorem space_not_mem_byteWord (b : Byte) : ' ' ∉ byteWord b := by
  have hb := b.isLt
  have hhigh := hexDigit_ne_space ⟨b.toNat / 16, by omega⟩
  have hlow := hexDigit_ne_space ⟨b.toNat % 16, by omega⟩
  simp [byteWord, hhigh.symm, hlow.symm]

theorem showBytes_cons (b : Byte) (bytes : ByteString) :
    showBytes (b :: bytes) = ' ' :: (byteWord b ++ showBytes bytes) := rfl

/-- The words of a line that ends with bytes: its first word, and one for each byte. -/
theorem words_append_showBytes {w : List Char} (hne : w ≠ []) (hw : ' ' ∉ w) (bytes : ByteString) :
    words (w ++ showBytes bytes) = w :: bytes.map byteWord := by
  induction bytes generalizing w with
  | nil => simpa [showBytes] using words_of_no_space hne hw
  | cons b bytes ih =>
    rw [showBytes_cons, words_append_space hne hw, ih (by simp [byteWord]) (space_not_mem_byteWord b)]
    rfl

theorem mapM_hexByte_byteWord (bytes : ByteString) : bytes.mapM (hexByte ∘ byteWord) = some bytes := by
  induction bytes with
  | nil => rfl
  | cons b bytes ih => simp [hexByte_byteWord, ih]

/-! ### The operation of `configure` -/

/-- A `SUBOP` as the word it is written as. -/
def subopWord (op : Byte) : List Char := '0' :: 'x' :: byteWord op

theorem space_not_mem_subopWord (op : Byte) : ' ' ∉ subopWord op := by
  simp [subopWord, space_not_mem_byteWord]

theorem digits_byteWord (b : Byte) : digits 16 0 (byteWord b) = some b.toNat := by
  have hb := b.isLt
  have hhigh : b.toNat / 16 < 16 := by omega
  have hlow : b.toNat % 16 < 16 := by omega
  have hsum : b.toNat / 16 * 16 + b.toNat % 16 = b.toNat := by omega
  simp [byteWord, digits, hexValue_hexDigit ⟨_, hhigh⟩, hexValue_hexDigit ⟨_, hlow⟩, hhigh, hlow, hsum]

theorem subop_subopWord (op : Byte) : subop (subopWord op) = some op := by
  have hop : op.toNat < 256 := op.isLt
  have hdigits := digits_byteWord op
  simp only [byteWord] at hdigits
  simp [subopWord, byteWord, subop, hdigits, hop]

theorem subopWord_ne_select (op : Byte) : subopWord op ≠ wSelect := by
  simp [subopWord, wSelect]

/-! ### Lines of commands -/

theorem assemble_setKey (key : ByteString) :
    assemble (wSetKey ++ showBytes key) = some (.setKey key) := by
  unfold assemble
  rw [words_append_showBytes (by decide) (by decide)]
  simp [mapM_hexByte_byteWord]

theorem assemble_encrypt (b : Block) :
    assemble (wEncrypt ++ showBytes b.bytes) = some (.encryptBlock b) := by
  have hne : wEncrypt ≠ wSetKey := by decide
  unfold assemble
  rw [words_append_showBytes (by decide) (by decide)]
  simp [mapM_hexByte_byteWord, hne]

theorem assemble_decrypt (b : Block) :
    assemble (wDecrypt ++ showBytes b.bytes) = some (.decryptBlock b) := by
  have hne : wDecrypt ≠ wSetKey ∧ wDecrypt ≠ wEncrypt := by decide
  unfold assemble
  rw [words_append_showBytes (by decide) (by decide)]
  simp [mapM_hexByte_byteWord, hne]

theorem assemble_configure (op : Byte) (payload : ByteString) :
    assemble (wConfigure ++ ' ' :: (subopWord op ++ showBytes payload)) = some (configureOp op payload) := by
  have hne : wConfigure ≠ wSetKey ∧ wConfigure ≠ wEncrypt ∧ wConfigure ≠ wDecrypt := by decide
  unfold assemble
  rw [words_append_space (by decide) (by decide),
    words_append_showBytes (by simp [subopWord]) (space_not_mem_subopWord op)]
  simp [mapM_hexByte_byteWord, hne, subop_subopWord, subopWord_ne_select]

theorem subopWord_select : subopWord subopSelect = ['0', 'x', '0', '1'] := by decide

end Sys2Proof.Machine.Text

namespace Sys2Proof

open Machine

/-- Settles O56: the words of the line are the command's name, its operation and its bytes, and each is read
back. -/
theorem textOfACommandReadsBack : Obligations.TextOfACommandReadsBack := by
  intro i hwf
  cases i with
  | setKey key => exact Text.assemble_setKey key
  | encryptBlock b => exact Text.assemble_encrypt b
  | decryptBlock b => exact Text.assemble_decrypt b
  | selectSbox oid =>
    have hline : Text.disassemble (.selectSbox oid) =
        Text.wConfigure ++ ' ' :: (Text.subopWord subopSelect ++ Text.showBytes oid) := by
      rw [Text.subopWord_select]
      rfl
    rw [hline, Text.assemble_configure]
    rfl
  | configUnsupported op payload =>
    obtain ⟨hop, -⟩ := configUnsupported_wf_iff.1 hwf
    have hline : Text.disassemble (.configUnsupported op payload) =
        Text.wConfigure ++ ' ' :: (Text.subopWord op ++ Text.showBytes payload) := rfl
    rw [hline, Text.assemble_configure]
    simp [Text.configureOp, hop]

end Sys2Proof
end
